-- ==== Sys2Proof/Word.lean ====
section
/-! DEFINITION. The words of the interface: wire bytes, packed status words, command and response words (R9, R70). -/

namespace Sys2Proof

/-- A wire byte, DATA_W = 8 bits (R9). -/
abbrev Byte := BitVec 8

/-- A packed status word, a checksum or a payload sum: STATUS_W = CHK_W = SUM_W = 16 bits (R9). -/
abbrev Half := BitVec 16

/-- A command word CMD or a response word RESP: CMD_W = RESP_W = 32 bits (R9). -/
abbrev Word := BitVec 32

end Sys2Proof
end

