-- ==== Sys2Proof/Syntax.lean ====
section
/-! DEFINITION. The commands of the block: one constructor for each row of spec/opcode_table.json (R72). -/

namespace Sys2Proof

/-- A command with its used operands; a field R72 calls ignored is no operand and changes nothing. -/
inductive Instr where
  /-- NOP (R118). -/
  | nop
  /-- START reg: arm the receiver, `a` the expected register (R110). -/
  | start (a : Byte)
  /-- BYTE b: deliver one received byte (R111). -/
  | byte (a : Byte)
  /-- ABORT: discard the current frame (R115). -/
  | abort
  /-- RDPAY idx: read one payload byte (R116). -/
  | rdpay (a : Byte)
  /-- RDREG n: read a status register, number 0 to 3 (R117). -/
  | rdreg (a : Byte)
  /-- DDATE v: manufacture date (R152). -/
  | ddate (v : Half)
  /-- DPROT v: protection state (R155). -/
  | dprot (v : Half)
  /-- DBAL v, n: cell-balance state, `a` the cell count (R158). -/
  | dbal (a : Byte) (v : Half)
  /-- DCD v: charge and discharge flags (R161). -/
  | dcd (v : Half)
  deriving DecidableEq, Repr

end Sys2Proof
end

