-- ==== Sys2Proof/WellFormed.lean ====
section
/-! DEFINITION. Which commands have a legal encoding (R73). -/

namespace Sys2Proof

/-- "for RDREG only, A <= 3 ... no other command has an illegal operand value" (R73). -/
def Instr.wellFormed : Instr → Bool
  | .nop => true
  | .start _ => true
  | .byte _ => true
  | .abort => true
  | .rdpay _ => true
  | .rdreg a => a.toNat ≤ 3
  | .ddate _ => true
  | .dprot _ => true
  | .dbal _ _ => true
  | .dcd _ => true

end Sys2Proof
end

