-- ==== Sys2Proof/Decode.lean ====
section
/-! DEFINITION. From a command word to a command or a named rejection (R70 to R74, R77), and the encoder (R78). -/

namespace Sys2Proof

/-- OP = CMD[31:28] (R71). -/
def opField (w : Word) : BitVec 4 := w.extractLsb' 28 4

/-- RSV = CMD[27:24] (R71). -/
def rsvField (w : Word) : BitVec 4 := w.extractLsb' 24 4

/-- A = CMD[23:16] (R71). -/
def aField (w : Word) : Byte := w.extractLsb' 16 8

/-- V = CMD[15:0] (R71). -/
def vField (w : Word) : Half := w.extractLsb' 0 16

/-- Why a word encodes no command (R73, R181). -/
inductive Reject where
  /-- RSV is not 0. -/
  | reservedField
  /-- OP is 0x6, 0x7 or 0xC to 0xF. -/
  | reservedOpcode
  /-- RDREG with A >= 4. -/
  | registerNumber
  deriving DecidableEq, Repr

/-- What decoding answers on a word. -/
inductive Decoded where
  | command (i : Instr)
  | illegal (r : Reject)
  deriving DecidableEq, Repr

/-- The dispatch of R77, total on every 32-bit word (R73). -/
def decode (w : Word) : Decoded :=
  if rsvField w = 0 then
    match (opField w).toNat with
    | 0x0 => .command .nop
    | 0x1 => .command (.start (aField w))
    | 0x2 => .command (.byte (aField w))
    | 0x3 => .command .abort
    | 0x4 => .command (.rdpay (aField w))
    | 0x5 => if 3 < (aField w).toNat then .illegal .registerNumber else .command (.rdreg (aField w))
    | 0x8 => .command (.ddate (vField w))
    | 0x9 => .command (.dprot (vField w))
    | 0xA => .command (.dbal (aField w) (vField w))
    | 0xB => .command (.dcd (vField w))
    | _ => .illegal .reservedOpcode
  else .illegal .reservedField

/-- The format of R70: OP, RSV, A, V from the high bits down. -/
def packCommand (op : BitVec 4) (a : Byte) (v : Half) : Word := op ++ (0#4) ++ a ++ v

/-- The command number of R72. -/
def Instr.opcode : Instr → BitVec 4
  | .nop => 0x0
  | .start _ => 0x1
  | .byte _ => 0x2
  | .abort => 0x3
  | .rdpay _ => 0x4
  | .rdreg _ => 0x5
  | .ddate _ => 0x8
  | .dprot _ => 0x9
  | .dbal _ _ => 0xA
  | .dcd _ => 0xB

/-- The A field an assembler writes: the byte operand, 0 where A is ignored (R72, R78). -/
def Instr.aOperand : Instr → Byte
  | .nop => 0
  | .start a => a
  | .byte a => a
  | .abort => 0
  | .rdpay a => a
  | .rdreg a => a
  | .ddate _ => 0
  | .dprot _ => 0
  | .dbal a _ => a
  | .dcd _ => 0

/-- The V field an assembler writes: the word operand, 0 where V is ignored (R72, R78). -/
def Instr.vOperand : Instr → Half
  | .nop => 0
  | .start _ => 0
  | .byte _ => 0
  | .abort => 0
  | .rdpay _ => 0
  | .rdreg _ => 0
  | .ddate v => v
  | .dprot v => v
  | .dbal _ v => v
  | .dcd v => v

/-- The word of a command, 0 in every ignored field (R78). -/
def encode (i : Instr) : Word := packCommand i.opcode i.aOperand i.vOperand

/-- The instruction a decoding gives, none where it refuses. -/
def Decoded.toOption : Decoded → Option Instr
  | .command i => some i
  | .illegal _ => none

/-- The word whose low nbits bits are w's and whose other bits are 0. A command is one 32-bit word with no byte
order (R54, R76), so the table's numbering of its bits is the word's own. -/
def tableWord (nbits w : Nat) : Word := BitVec.ofNat 32 (w % 2 ^ nbits)

/-- What the decoder reads from an opcode-table word; a command is never longer than 32 bits (R76). -/
def decodeTableWord (nbits w : Nat) : Option Instr :=
  if nbits ≤ 32 then (decode (tableWord nbits w)).toOption else none

end Sys2Proof
end

