-- ==== Sys2Proof/Config.lean ====
section
/-! DEFINITION. The block's parameters (R9), and the values the spec leaves open, as constants with no body. -/

namespace Sys2Proof.Config

/-- PAYBUF_SIZE: payload buffer bytes, indices 0 to 254 (R9, R50). -/
def payBufSize : Nat := 255

/-- Bytes of a frame before its payload: status, register, errorFlag, length (R100). -/
def headerBytes : Nat := 4

/-- Bytes of a frame that are not payload: the header, two checksum bytes and the stop byte; n = L + 7 (R100). -/
def overheadBytes : Nat := 7

/-- The command byte BASIC_INFO of a query (R25). -/
def basicInfo : Byte := 0x03

/-- The command byte CELL_VOLTAGES of a query (R25). -/
def cellVoltages : Byte := 0x04

/-- The value of a PAYBUF byte that nothing has written since the reset numbered `epoch`: unspecified, any value
(R22, R210, S1). A free value: it has no body, and no statement rests on what it is. Log 5, log 6. -/
opaque freePayByte (epoch index : Nat) : Byte

/-- QUERY_FRAME(cmd), the query byte sequence for the command byte cmd in 0x03, 0x04: an OPEN parameter (R9, D27).
No rule of the block reads it; only its byte 2, the command byte, enters through START's A field. Log 10. -/
opaque queryFrame (cmd : Byte) : List Byte

end Sys2Proof.Config
end

