-- ==== Sys2Proof/Machine/State.lean ====
section
/-! DEFINITION. The block's state as plain data (R22), its state after reset (R210), and the ways a step can stop. -/

namespace Sys2Proof.Machine

/-- The values of STATE that a rule produces (R23; 3 is never produced, S2, log 7). -/
inductive RxState where
  /-- 0: no frame expected. -/
  | idle
  /-- 1: a frame is being received. -/
  | recv
  /-- 2: a frame was received and VERDICT holds its result. -/
  | done
  deriving DecidableEq, Repr

/-- The values of VERDICT that a rule produces (R24, R183; 5 to 7 are never produced, S2, log 7). -/
inductive Verdict where
  /-- 0: no frame has completed since the last START, ABORT or reset. -/
  | none
  /-- 1: all three checks passed. -/
  | ok
  /-- 2: frame byte 2 is not 0. -/
  | deviceError
  /-- 3: frame byte 1 is not the expected register. -/
  | protocolMismatch
  /-- 4: the received checksum is not the computed one. -/
  | checksumError
  deriving DecidableEq, Repr

/-- The values of CAUSE that a rule produces (R180; 3 is never produced, S2, log 7). -/
inductive Cause where
  /-- 0: the command executed as its rule says. -/
  | accepted
  /-- 1: the word encodes no command. -/
  | illegal
  /-- 2: a legal command not allowed in the current STATE. -/
  | rejected
  deriving DecidableEq, Repr

/-- The moves R218 gives the host: issue a command word, or assert reset. -/
inductive HostInput where
  | command (w : Word)
  | reset
  deriving DecidableEq, Repr

/-- The architectural state of R22, the outputs RESP and CAUSE of R41, and two fields of the model's own
(`host`, log 1; `epoch`, log 6). DONE and the readable registers STAT, POS, CHKS, ACC are views of it. -/
structure State where
  /-- STATE (R23). -/
  fsm : RxState
  /-- VERDICT (R24). -/
  verdict : Verdict
  /-- EXPREG (R25). -/
  expreg : Byte
  /-- SOF (R30). -/
  sof : Byte
  /-- RXREG (R26). -/
  rxreg : Byte
  /-- ERRFLAG (R27). -/
  errflag : Byte
  /-- LEN (R28). -/
  len : Byte
  /-- CNT (R29). -/
  cnt : BitVec 9
  /-- SUM (R32). -/
  sum : Half
  /-- RXCHK (R33). -/
  rxchk : Half
  /-- CALCCHK (R34). -/
  calcchk : Half
  /-- EOF (R31). -/
  eof : Byte
  /-- PAYBUF (R50): the bytes written since reset, by strictly rising index; an unlisted byte is unspecified (log 5). -/
  paybuf : List Host.Cell
  /-- RESP, the response of the command just executed (R41). -/
  resp : Word
  /-- CAUSE, the outcome of the command just executed (R41, R180). -/
  cause : Cause
  /-- The model's own: what the host does next, first move first (log 1). -/
  host : List HostInput
  /-- The model's own: which reset the unspecified bytes of PAYBUF date from (log 6). -/
  epoch : Nat
  deriving DecidableEq, Repr

/-- The block right after reset (R22's reset column, R210). PAYBUF lists nothing: every byte is unspecified.
RESP and CAUSE: DESIGN CHOICE, log 4. `host` and `epoch`: DESIGN CHOICE, log 2, log 6. -/
def State.reset : State where
  fsm := .idle
  verdict := .none
  expreg := 0
  sof := 0
  rxreg := 0
  errflag := 0
  len := 0
  cnt := 0
  sum := 0
  rxchk := 0
  calcchk := 0
  eof := 0
  paybuf := []
  resp := 0
  cause := .accepted
  host := []
  epoch := 0

/-- The faults that stop the block: none. The spec gives every word in every state an effect (R73, R181, R182, R188),
so the type is empty, and no step can fault (DEDUCED, log 9; unsafe if the hardware could hang). -/
inductive Fault where
  deriving DecidableEq, Repr

/-- The refusals of the model. -/
inductive Refusal where
  /-- Raised only by an arm of `exec` whose instruction has no meaning yet, by its mnemonic; every arm has its
  meaning, so nothing raises it. Safe. -/
  | notModelled (mnemonic : String)
  deriving DecidableEq, Repr

end Sys2Proof.Machine
end

