-- ==== Sys2Proof/Machine/Flags.lean ====
section
/-! DEFINITION. The level DONE, the checksum the block computes, and the verdict in the order of R102 (R113). -/

namespace Sys2Proof.Machine

/-- DONE, a level equal to STATE == 2 at all times (R41, R186). -/
def State.done (s : State) : Bool := s.fsm == .done

/-- CALCCHK's new value: ((SUM + LEN - 1) mod 2^16) XOR 0xFFFF (R113). -/
def computedChecksum (sum : Half) (len : Byte) : Half := (sum + len.setWidth 16 - 1) ^^^ 0xFFFF

/-- The first failing check, in the order error flag, register echo, checksum (R113, R184). -/
def verdictOf (errflag rxreg expreg : Byte) (rxchk calcchk : Half) : Verdict :=
  if errflag ≠ 0 then .deviceError
  else if rxreg ≠ expreg then .protocolMismatch
  else if rxchk ≠ calcchk then .checksumError
  else .ok

/-- RDPAY's condition for a valid read: STATE = DONE, VERDICT = OK, index below LEN (R116). -/
def State.payloadReadable (s : State) (i : Byte) : Bool :=
  s.fsm == .done && s.verdict == .ok && i.toNat < s.len.toNat

end Sys2Proof.Machine
end

