-- ==== Sys2Proof/Machine/Operands.lean ====
section
/-! DEFINITION. The codes of the typed-out fields and the views the host reads: STAT, POS, CHKS, ACC and the register
operand of RDREG (R36 to R40). -/

namespace Sys2Proof.Machine

/-- STATE's 2-bit code (R23). -/
def RxState.code : RxState → BitVec 2
  | .idle => 0
  | .recv => 1
  | .done => 2

/-- VERDICT's 3-bit code (R24). -/
def Verdict.code : Verdict → BitVec 3
  | .none => 0
  | .ok => 1
  | .deviceError => 2
  | .protocolMismatch => 3
  | .checksumError => 4

/-- CAUSE's 2-bit code (R180). -/
def Cause.code : Cause → BitVec 2
  | .accepted => 0
  | .illegal => 1
  | .rejected => 2

/-- Register 0, STAT (R36): RXREG, EXPREG, LEN, three zero bits, VERDICT, STATE, from bit 31 down. -/
def State.stat (s : State) : Word := s.rxreg ++ s.expreg ++ s.len ++ (0#3) ++ s.verdict.code ++ s.fsm.code

/-- Register 1, POS (R37): SOF, ERRFLAG, seven zero bits, CNT. -/
def State.pos (s : State) : Word := s.sof ++ s.errflag ++ (0#7) ++ s.cnt

/-- Register 2, CHKS (R38): RXCHK, CALCCHK. -/
def State.chks (s : State) : Word := s.rxchk ++ s.calcchk

/-- Register 3, ACC (R39): eight zero bits, EOF, SUM. -/
def State.acc (s : State) : Word := (0#8) ++ s.eof ++ s.sum

/-- The register a register number selects; numbers 4 to 255 are unassigned (R40, R117). -/
def State.readReg (s : State) (n : Byte) : Option Word :=
  match n.toNat with
  | 0 => some s.stat
  | 1 => some s.pos
  | 2 => some s.chks
  | 3 => some s.acc
  | _ => none

end Sys2Proof.Machine
end

