-- ==== Sys2Proof/Machine/Ops.lean ====
section
/-! DEFINITION. The shared operations: PAYBUF, the response of a command, `raise Illegal()` and `raise Rejected()`,
the receiver's capture and finalisation of a frame (R112, R113), and reset (R210). -/

namespace Sys2Proof.Machine

/-- Byte i of the listed bytes of PAYBUF, none where nothing has written it since reset. -/
def Paybuf.read : List Host.Cell → Nat → Option Byte
  | [], _ => none
  | (j, b) :: rest, i => if i = j then some b else Paybuf.read rest i

/-- PAYBUF with byte i set, the list kept by strictly rising index. -/
def Paybuf.write : List Host.Cell → Nat → Byte → List Host.Cell
  | [], i, b => [(i, b)]
  | (j, c) :: rest, i, b =>
    if i < j then (i, b) :: (j, c) :: rest
    else if i = j then (i, b) :: rest
    else (j, c) :: Paybuf.write rest i b

/-- Strictly rising indices, all at or above `lo`. -/
def Paybuf.rising : Nat → List Host.Cell → Bool
  | _, [] => true
  | lo, (j, _) :: rest => decide (lo ≤ j) && Paybuf.rising (j + 1) rest

/-- The canonical form: strictly rising indices, each below 255 (R58). An unlisted index reads as no listed byte,
so no entry can equal what it reads as. -/
def Paybuf.wf (m : List Host.Cell) : Bool :=
  Paybuf.rising 0 m && m.all (fun c => decide (c.1 < Config.payBufSize))

/-- MemRead(i, 1) (R50): the byte written there since reset, else an unspecified byte (S1, log 5). -/
def State.payByte (s : State) (i : Nat) : Byte :=
  match Paybuf.read s.paybuf i with
  | some b => b
  | none => Config.freePayByte s.epoch i

/-- MemWrite(i, 1, b) (R50). -/
def State.writePay (s : State) (i : Nat) (b : Byte) : State := { s with paybuf := Paybuf.write s.paybuf i b }

/-- The result of a command: RESP and CAUSE, the block's outputs (R41, R75). -/
def State.respond (s : State) (c : Cause) (r : Word) : State := { s with resp := r, cause := c }

/-- `resp <- r; cause <- 0`: the command executed as its rule says (R11, R180). -/
def State.accept (s : State) (r : Word) : State := s.respond .accepted r

/-- The block's one exception: RESP and CAUSE only; nothing is saved and no control is transferred (R188).
ILLEGAL answers RESP 0 (R181), any other cause answers STAT, unchanged (R182). -/
def State.raise (s : State) (c : Cause) : State :=
  match c with
  | .illegal => s.respond .illegal 0
  | .accepted => s.respond .accepted s.stat
  | .rejected => s.respond .rejected s.stat

/-- `raise Illegal()` (R181). -/
def State.raiseIllegal (s : State) : State := s.raise .illegal

/-- `raise Rejected()` (R182). -/
def State.raiseRejected (s : State) : State := s.raise .rejected

/-- START's writes when it is accepted (R110); PAYBUF is not written. -/
def State.arm (s : State) (a : Byte) : State :=
  { s with
    fsm := .recv, expreg := a, verdict := .none
    cnt := 0, sof := 0, rxreg := 0, errflag := 0, len := 0, eof := 0
    sum := 0, rxchk := 0, calcchk := 0 }

/-- ABORT's writes; every other register keeps its value (R115). -/
def State.abandon (s : State) : State := { s with fsm := .idle, verdict := .none }

/-- CAPTURE(k, b): store byte k of the frame by its offset (R112). The last branch is the stop byte, k = 6 + LEN;
no run reaches it with a greater k (log 8). -/
def State.capture (s : State) (k : Nat) (b : Byte) : State :=
  if k = 0 then { s with sof := b }
  else if k = 1 then { s with rxreg := b }
  else if k = 2 then { s with errflag := b }
  else if k = 3 then { s with len := b, sum := 0 }
  else if k < 4 + s.len.toNat then { s.writePay (k - 4) b with sum := s.sum + b.setWidth 16 }
  else if k = 4 + s.len.toNat then { s with rxchk := b ++ s.rxchk.extractLsb' 0 8 }
  else if k = 5 + s.len.toNat then { s with rxchk := s.rxchk.extractLsb' 8 8 ++ b }
  else { s with eof := b }

/-- FINALIZE(): checksum, verdict and STATE at the stop byte (R113). -/
def State.finalize (s : State) : State :=
  { s with
    fsm := .done
    verdict := verdictOf s.errflag s.rxreg s.expreg s.rxchk (computedChecksum s.sum s.len)
    calcchk := computedChecksum s.sum s.len }

/-- An accepted BYTE before its response: capture, count, and finalise at k = 6 + LEN, with LEN read after the
capture (R111). -/
def State.deliver (s : State) (b : Byte) : State :=
  let k := s.cnt.toNat
  let t := { s.capture k b with cnt := s.cnt + 1 }
  if k = 6 + t.len.toNat then t.finalize else t

/-- Reset asserted by the host (R210): every register at its reset value; PAYBUF is not cleared, each byte holds a
fresh unspecified value (S1, log 6). RESP and CAUSE as in `State.reset` (log 4); what the host does next is its own. -/
def State.assertReset (s : State) : State := { State.reset with host := s.host, epoch := s.epoch + 1 }

end Sys2Proof.Machine
end

