-- ==== Sys2Proof/Machine/BitField.lean ====
section
/-! DEFINITION. The meanings of the stateless decoders: DDATE, DPROT, DBAL, DCD (41_bitfield.md). -/

namespace Sys2Proof.Machine

/-- DDATE's response: year = 2000 + V[15:9] in RESP[31:16], month = V[8:5] in RESP[11:8], day = V[4:0] in RESP[4:0]
(R152). -/
def dateResponse (v : Half) : Word :=
  (2000#16 + (v.extractLsb' 9 7).setWidth 16) ++ (0#4) ++ v.extractLsb' 5 4 ++ (0#3) ++ v.extractLsb' 0 5

/-- DPROT's response: V[12:0] (R155); bits 13 to 15 are ignored (R156). -/
def protResponse (v : Half) : Word := (v.extractLsb' 0 13).setWidth 32

/-- DBAL's response: the cell count in RESP[23:16], V AND (2^m - 1) with m = min(n, 16) in RESP[15:0] (R158). -/
def balResponse (a : Byte) (v : Half) : Word :=
  (a ++ (v &&& BitVec.ofNat 16 (2 ^ min a.toNat 16 - 1))).setWidth 32

/-- DCD's response: discharging = V[0] in RESP[0], charging = V[1] in RESP[1] (R161). -/
def chargeResponse (v : Half) : Word := (v.extractLsb' 1 1 ++ v.extractLsb' 0 1).setWidth 32

/-- DDATE (R152, R153): nothing is validated; no state change. -/
def execDdate (v : Half) (s : State) : Host.Outcome State Fault Refusal := .next (s.accept (dateResponse v))

/-- DPROT (R155); no state change. -/
def execDprot (v : Half) (s : State) : Host.Outcome State Fault Refusal := .next (s.accept (protResponse v))

/-- DBAL (R158 to R160); no state change. -/
def execDbal (a : Byte) (v : Half) (s : State) : Host.Outcome State Fault Refusal :=
  .next (s.accept (balResponse a v))

/-- DCD (R161, R162); no state change. -/
def execDcd (v : Half) (s : State) : Host.Outcome State Fault Refusal := .next (s.accept (chargeResponse v))

end Sys2Proof.Machine
end

