-- ==== Sys2Proof/Machine/FrameCodec.lean ====
section
/-! DEFINITION. The meanings of the frame codec's commands: NOP, START, BYTE, ABORT, RDPAY, RDREG (40_frame_codec.md). -/

namespace Sys2Proof.Machine

/-- NOP (R118): RESP is STAT; no state change. -/
def execNop (s : State) : Host.Outcome State Fault Refusal := .next (s.accept s.stat)

/-- START (R110): REJECTED in RECV, else the receiver is armed and RESP is STAT after it. -/
def execStart (a : Byte) (s : State) : Host.Outcome State Fault Refusal :=
  if s.fsm = .recv then .next s.raiseRejected
  else .next ((s.arm a).accept (s.arm a).stat)

/-- BYTE (R111): REJECTED outside RECV, else the byte is delivered and RESP is STAT after it. -/
def execByte (a : Byte) (s : State) : Host.Outcome State Fault Refusal :=
  if s.fsm = .recv then .next ((s.deliver a).accept (s.deliver a).stat)
  else .next s.raiseRejected

/-- ABORT (R115): accepted in every state; RESP is STAT after it. -/
def execAbort (s : State) : Host.Outcome State Fault Refusal := .next (s.abandon.accept s.abandon.stat)

/-- RDPAY (R116): RESP[8] = 1 and the byte when the payload is readable at that index, else RESP 0. -/
def execRdpay (a : Byte) (s : State) : Host.Outcome State Fault Refusal :=
  if s.payloadReadable a then .next (s.accept ((1#24) ++ s.payByte a.toNat))
  else .next (s.accept 0)

/-- RDREG (R117): the selected register; a number above 3 is illegal. -/
def execRdreg (a : Byte) (s : State) : Host.Outcome State Fault Refusal :=
  match s.readReg a with
  | some r => .next (s.accept r)
  | none => .next s.raiseIllegal

end Sys2Proof.Machine
end

