-- ==== Sys2Proof/Machine/Dispatch.lean ====
section
/-! DEFINITION. One arm for each command (R72, R77). -/

namespace Sys2Proof.Machine

def exec (i : Instr) (s : State) : Host.Outcome State Fault Refusal :=
  match i with
  | .nop => Sys2Proof.Machine.execNop s
  | .start a => Sys2Proof.Machine.execStart a s
  | .byte a => Sys2Proof.Machine.execByte a s
  | .abort => Sys2Proof.Machine.execAbort s
  | .rdpay a => Sys2Proof.Machine.execRdpay a s
  | .rdreg a => Sys2Proof.Machine.execRdreg a s
  | .ddate v => Sys2Proof.Machine.execDdate v s
  | .dprot v => Sys2Proof.Machine.execDprot v s
  | .dbal a v => Sys2Proof.Machine.execDbal a v s
  | .dcd v => Sys2Proof.Machine.execDcd v s

end Sys2Proof.Machine
end

