-- ==== Sys2Proof/Machine/Issue.lean ====
section
/-! DEFINITION. What the block does with one move of the host (R14, R77, R210, R211, R218). -/

namespace Sys2Proof.Machine

/-- Execute one command word: the decoded command, or `raise Illegal()` (R73, R77, R181). -/
def runWord (w : Word) (s : State) : Host.Outcome State Fault Refusal :=
  match decode w with
  | .command i => exec i s
  | .illegal _ => .next s.raiseIllegal

/-- One move of the host: a command word, or reset (R218). -/
def runInput (m : HostInput) (s : State) : Host.Outcome State Fault Refusal :=
  match m with
  | .command w => runWord w s
  | .reset => .next s.assertReset

/-- With nothing issued the block waits for a command and nothing changes (R211, R119; log 3). -/
def waitForHost (s : State) : Host.Outcome State Fault Refusal := .next s

/-- The state in which the host's next move is to issue the word (log 2). -/
def issueWord (s : State) (w : Word) : State := { s with host := .command w :: s.host }

end Sys2Proof.Machine
end

