-- ==== Sys2Proof/Machine/Step.lean ====
section
/-! DEFINITION. One step: the block takes the host's next move (R14, R59). -/

namespace Sys2Proof.Machine

/-- One step: the head of `host` is consumed and executed; with none the block waits (log 1, log 3). -/
def step (s : State) : Host.Outcome State Fault Refusal :=
  match s.host with
  | [] => waitForHost s
  | m :: rest => runInput m { s with host := rest }

/-- The host issues this word next (log 2). -/
def State.withFetchWord (s : State) (nbits w : Nat) : State := issueWord s (tableWord nbits w)

end Sys2Proof.Machine
end

