-- ==== Sys2Proof/Machine/Assembler.lean ====
section
/-! DEFINITION. The spec's assembler (R78) and its pseudo-instruction RXFRAME (R79). Text is a list of characters.
The lexical points R78 leaves open are in log 13. -/

namespace Sys2Proof.Machine.Assembler

/-- One line of assembly: a command of R78 or RXFRAME (R79), operands as the numbers written. -/
inductive Line where
  | nop
  | start (reg : Nat)
  | byte (b : Nat)
  | abort
  | rdpay (idx : Nat)
  | rdreg (n : Nat)
  | ddate (v : Nat)
  | dprot (v : Nat)
  | dbal (v n : Nat)
  | dcd (v : Nat)
  | rxframe (reg : Nat) (bytes : List Nat)
  deriving DecidableEq, Repr

/-- Why a text does not assemble. -/
inductive AsmError where
  | unknownMnemonic
  | badOperand
  | operandCount
  /-- "An operand that does not fit its field ... is an assembly error, not a truncation" (R78). -/
  | operandRange
  deriving DecidableEq, Repr

/-- The result of assembling. -/
inductive Result (α : Type) where
  | ok (a : α)
  | error (e : AsmError)
  deriving DecidableEq, Repr

def Result.bind {α β : Type} (r : Result α) (f : α → Result β) : Result β :=
  match r with
  | .ok a => f a
  | .error e => .error e

/-- `base OR (a << 16)`, an error where a is above 255 (R78). -/
def wordA (base : Word) (a : Nat) : Result Word :=
  if a ≤ 255 then .ok (base ||| (BitVec.ofNat 32 a <<< 16)) else .error .operandRange

/-- `base OR v`, an error where v is above 65535 (R78). -/
def wordV (base : Word) (v : Nat) : Result Word :=
  if v ≤ 65535 then .ok (base ||| BitVec.ofNat 32 v) else .error .operandRange

/-- One BYTE for each listed byte, in order (R79). -/
def byteWords : List Nat → Result (List Word)
  | [] => .ok []
  | b :: rest => (wordA 0x20000000 b).bind fun w => (byteWords rest).bind fun ws => .ok (w :: ws)

/-- The words of one line, by the table of R78; RXFRAME is START followed by its BYTEs (R79). -/
def assembleLine : Line → Result (List Word)
  | .nop => .ok [0x00000000]
  | .start reg => (wordA 0x10000000 reg).bind fun w => .ok [w]
  | .byte b => (wordA 0x20000000 b).bind fun w => .ok [w]
  | .abort => .ok [0x30000000]
  | .rdpay idx => (wordA 0x40000000 idx).bind fun w => .ok [w]
  | .rdreg n => (wordA 0x50000000 n).bind fun w => .ok [w]
  | .ddate v => (wordV 0x80000000 v).bind fun w => .ok [w]
  | .dprot v => (wordV 0x90000000 v).bind fun w => .ok [w]
  | .dbal v n => (wordA 0xA0000000 n).bind fun w => (wordV w v).bind fun w' => .ok [w']
  | .dcd v => (wordV 0xB0000000 v).bind fun w => .ok [w]
  | .rxframe reg bytes => (wordA 0x10000000 reg).bind fun w => (byteWords bytes).bind fun ws => .ok (w :: ws)

/-! Reading text. -/

def isBlank (c : Char) : Bool := c == ' ' || c == '\t' || c == '\r'

/-- The text without blanks at either end. -/
def trim (cs : List Char) : List Char := ((cs.dropWhile isBlank).reverse.dropWhile isBlank).reverse

/-- The pieces between separators; n separators give n + 1 pieces. -/
def splitOn (sep : Char) : List Char → List (List Char)
  | [] => [[]]
  | c :: rest =>
    match splitOn sep rest with
    | [] => [[c]]
    | p :: ps => if c = sep then [] :: p :: ps else (c :: p) :: ps

/-- The value of a digit. -/
def digit (c : Char) : Option Nat :=
  let n := c.toNat
  if 48 ≤ n ∧ n ≤ 57 then some (n - 48)
  else if 97 ≤ n ∧ n ≤ 102 then some (n - 87)
  else if 65 ≤ n ∧ n ≤ 70 then some (n - 55)
  else none

/-- A non-empty run of digits in the base, after what is read so far. -/
def digits (base : Nat) : Nat → List Char → Option Nat
  | _, [] => none
  | acc, [c] =>
    match digit c with
    | some d => if d < base then some (acc * base + d) else none
    | none => none
  | acc, c :: rest =>
    match digit c with
    | some d => if d < base then digits base (acc * base + d) rest else none
    | none => none

/-- "numbers in C notation (0x hexadecimal, 0b binary, else decimal)" (R78). -/
def number : List Char → Option Nat
  | '0' :: 'x' :: rest => digits 16 0 rest
  | '0' :: 'b' :: rest => digits 2 0 rest
  | cs => digits 10 0 cs

/-- RDREG's operand: a number, or STAT, POS, CHKS, ACC for 0 to 3 (R78). -/
def registerName (cs : List Char) : Option Nat :=
  if cs = ['S', 'T', 'A', 'T'] then some 0
  else if cs = ['P', 'O', 'S'] then some 1
  else if cs = ['C', 'H', 'K', 'S'] then some 2
  else if cs = ['A', 'C', 'C'] then some 3
  else number cs

/-- Every operand read, or a bad operand. -/
def readAll (read : List Char → Option Nat) : List (List Char) → Result (List Nat)
  | [] => .ok []
  | cs :: rest =>
    match read cs with
    | some n => (readAll read rest).bind fun ns => .ok (n :: ns)
    | none => .error .badOperand

/-- A line with no operand. -/
def take0 (line : Line) : List Nat → Result (Option Line)
  | [] => .ok (some line)
  | _ => .error .operandCount

/-- A line with one operand. -/
def take1 (line : Nat → Line) : List Nat → Result (Option Line)
  | [x] => .ok (some (line x))
  | _ => .error .operandCount

/-- A line with two operands. -/
def take2 (line : Nat → Nat → Line) : List Nat → Result (Option Line)
  | [x, y] => .ok (some (line x y))
  | _ => .error .operandCount

/-- RXFRAME's operands: the register, then the bytes. -/
def takeFrame : List Nat → Result (Option Line)
  | reg :: bytes => .ok (some (.rxframe reg bytes))
  | [] => .error .operandCount

/-- The operands after a mnemonic, separated by commas; none where nothing but blanks follows. -/
def operands (cs : List Char) : List (List Char) :=
  if trim cs = [] then [] else (splitOn ',' cs).map trim

/-- The line a mnemonic and its operand text stand for (R78, R79). -/
def lineOf (mnemonic : List Char) (rest : List Char) : Result (Option Line) :=
  let nums := readAll number (operands rest)
  if mnemonic = ['N', 'O', 'P'] then nums.bind (take0 .nop)
  else if mnemonic = ['S', 'T', 'A', 'R', 'T'] then nums.bind (take1 .start)
  else if mnemonic = ['B', 'Y', 'T', 'E'] then nums.bind (take1 .byte)
  else if mnemonic = ['A', 'B', 'O', 'R', 'T'] then nums.bind (take0 .abort)
  else if mnemonic = ['R', 'D', 'P', 'A', 'Y'] then nums.bind (take1 .rdpay)
  else if mnemonic = ['R', 'D', 'R', 'E', 'G'] then (readAll registerName (operands rest)).bind (take1 .rdreg)
  else if mnemonic = ['D', 'D', 'A', 'T', 'E'] then nums.bind (take1 .ddate)
  else if mnemonic = ['D', 'P', 'R', 'O', 'T'] then nums.bind (take1 .dprot)
  else if mnemonic = ['D', 'B', 'A', 'L'] then nums.bind (take2 .dbal)
  else if mnemonic = ['D', 'C', 'D'] then nums.bind (take1 .dcd)
  else if mnemonic = ['R', 'X', 'F', 'R', 'A', 'M', 'E'] then nums.bind takeFrame
  else .error .unknownMnemonic

/-- One line of text: `;` starts a comment, an empty line stands for nothing, else a mnemonic, then its operands
(R78). -/
def parseLine (text : List Char) : Result (Option Line) :=
  let cs := trim (text.takeWhile (fun c => c ≠ ';'))
  if cs = [] then .ok none
  else lineOf (cs.takeWhile (fun c => !isBlank c)) (cs.dropWhile (fun c => !isBlank c))

/-- The words of a list of text lines. -/
def assembleLines : List (List Char) → Result (List Word)
  | [] => .ok []
  | text :: rest =>
    (parseLine text).bind fun parsed =>
      match parsed with
      | none => assembleLines rest
      | some line => (assembleLine line).bind fun ws => (assembleLines rest).bind fun ws' => .ok (ws ++ ws')

/-- The words of a program's text, one command a line (R78). -/
def assemble (text : List Char) : Result (List Word) := assembleLines (splitOn '\n' text)

end Sys2Proof.Machine.Assembler
end

