-- ==== Sys2Proof/Machine/Reference.lean ====
section
/-! DEFINITION. The reference functions over a whole frame and over a status word, transcribed from the document: these
are normative (40_frame_codec.md Part 1, 41_bitfield.md). No command calls them; the statements compare the commands
with them. -/

namespace Sys2Proof.Machine.Reference

/-- sum(S): the exact integer sum of the bytes of S (R11). -/
def byteSum : List Byte → Nat
  | [] => 0
  | b :: rest => b.toNat + byteSum rest

/-- CHECKSUM(L, S) = ((sum(S) + L - 1) mod 2^16) XOR 0xFFFF, over the exact integers (R101). -/
def checksum (L : Nat) (S : List Byte) : Half := BitVec.ofInt 16 ((byteSum S : Int) + (L : Int) - 1) ^^^ 0xFFFF

/-- F[i], byte i of a frame (R11); the functions below read it only inside the frame. -/
def frameByte (F : List Byte) (i : Nat) : Byte := F.getD i 0

/-- L = F[3], the declared payload length (R100). -/
def frameLen (F : List Byte) : Nat := (frameByte F 3).toNat

/-- n = F[3] + 7: the frames VALIDATE is defined for (R100, R104). -/
def isFrame (F : List Byte) : Prop := F.length = frameLen F + Config.overheadBytes

/-- F[4..n-4], the payload of a frame (R100, R12). -/
def framePayload (F : List Byte) : List Byte := (F.drop Config.headerBytes).take (frameLen F)

/-- {F[n-3], F[n-2]}, the received checksum, high byte first (R100, R102). -/
def frameChecksum (F : List Byte) : Half := frameByte F (F.length - 3) ++ frameByte F (F.length - 2)

/-- CHECKSUM(L, F[4..n-4]), the checksum VALIDATE recomputes (R102 step 3). -/
def expectedChecksum (F : List Byte) : Half := checksum (frameLen F) (framePayload F)

/-- The result of validating a frame: one of three errors, or OK with the payload (R102, R103). -/
inductive Validation where
  | ok (payload : List Byte)
  | deviceError
  | protocolMismatch
  | checksumError
  deriving DecidableEq, Repr

/-- The verdict that reports a result (R183). -/
def Validation.verdict : Validation → Verdict
  | .ok _ => .ok
  | .deviceError => .deviceError
  | .protocolMismatch => .protocolMismatch
  | .checksumError => .checksumError

/-- VALIDATE(r, F) (R102); none, a refusal, on a buffer whose length is not F[3] + 7 (R104). -/
def validate (r : Byte) (F : List Byte) : Option Validation :=
  if F.length ≠ frameLen F + Config.overheadBytes then none
  else if frameByte F 2 ≠ 0 then some .deviceError
  else if frameByte F 1 ≠ r then some .protocolMismatch
  else if frameChecksum F ≠ expectedChecksum F then some .checksumError
  else some (.ok (framePayload F))

/-- V = {PAYBUF[j], PAYBUF[j+1]}: a 16-bit payload field as the host assembles it, big-endian (R52, R163). -/
def payloadField (hi lo : Byte) : Half := hi ++ lo

/-- The 13 members of the ProtectionState enumeration, in bit order (R150). -/
inductive ProtectionState where
  | singleOvervoltage
  | singleUndervoltage
  | packOvervoltage
  | packUndervoltage
  | chargeOverTemperature
  | chargeUnderTemperature
  | dischargeOverTemperature
  | dischargeUnderTemperature
  | chargeOverCurrent
  | dischargeOverCurrent
  | shortCircuit
  | frontDetectionIcError
  | mosSoftwareLock
  deriving DecidableEq, Repr

/-- The bit position of a member (R150). -/
def ProtectionState.bit : ProtectionState → Nat
  | .singleOvervoltage => 0
  | .singleUndervoltage => 1
  | .packOvervoltage => 2
  | .packUndervoltage => 3
  | .chargeOverTemperature => 4
  | .chargeUnderTemperature => 5
  | .dischargeOverTemperature => 6
  | .dischargeUnderTemperature => 7
  | .chargeOverCurrent => 8
  | .dischargeOverCurrent => 9
  | .shortCircuit => 10
  | .frontDetectionIcError => 11
  | .mosSoftwareLock => 12

/-- Every member, in bit order (R150). -/
def ProtectionState.all : List ProtectionState :=
  [.singleOvervoltage, .singleUndervoltage, .packOvervoltage, .packUndervoltage, .chargeOverTemperature,
    .chargeUnderTemperature, .dischargeOverTemperature, .dischargeUnderTemperature, .chargeOverCurrent,
    .dischargeOverCurrent, .shortCircuit, .frontDetectionIcError, .mosSoftwareLock]

/-- decodeProtectionStates(u16): "bit i set (i in 0..12) => corresponding state is active" (R155). -/
def decodeProtectionStates (v : Half) : List ProtectionState :=
  ProtectionState.all.filter (fun p => v.getLsbD p.bit)

/-- A decoded date; no field is checked against a calendar (R153). -/
structure Date where
  year : Nat
  month : Nat
  day : Nat
  deriving DecidableEq, Repr

/-- decodeDate(u16): "year = 2000 + (value >> 9)", "month = (value >> 5) & 0xF", "day = value & 0x1F" (R152). -/
def decodeDate (v : Half) : Date where
  year := 2000 + (v >>> 9).toNat
  month := ((v >>> 5) &&& 0xF).toNat
  day := (v &&& 0x1F).toNat

/-- decodeBalanceStates(u16, cellCount): element i is bit i for i below 16, false above (R158, R159). -/
def decodeBalanceStates (v : Half) (n : Byte) : List Bool :=
  (List.range n.toNat).map (fun i => decide (i < 16) && v.getLsbD i)

/-- Decoded charge and discharge flags (R161). -/
structure ChargeFlags where
  discharging : Bool
  charging : Bool
  deriving DecidableEq, Repr

/-- decodeChargeDischargeFlags(u16): "bit 0 = discharging, bit 1 = charging" (R161; UNVERIFIED, G3, log 12). -/
def decodeChargeDischargeFlags (v : Half) : ChargeFlags where
  discharging := v.getLsbD 0
  charging := v.getLsbD 1

end Sys2Proof.Machine.Reference
end

