-- ==== Sys2Proof/Safety.lean ====
section
/-! DEFINITION. What a good state is, what the host can see, and what a run of host moves answers. -/

namespace Sys2Proof.Machine

open Reference

/-- How many payload bytes of the current frame BYTE has captured: bytes 4 to 3 + LEN of the frame, as far as CNT has
come (R29, R100). -/
def State.received (s : State) : Nat := min (s.cnt.toNat - Config.headerBytes) s.len.toNat

/-- PAYBUF[0..n-1]. -/
def State.payBytes (s : State) (n : Nat) : List Byte := (List.range n).map s.payByte

/-- The invariant of the receiver: every step keeps it, and it holds at reset. It rules out the states no run
reaches; each field is a sentence of 10_state.md. -/
structure State.Inv (s : State) : Prop where
  /-- PAYBUF keeps its canonical form. -/
  pay_wf : Paybuf.wf s.paybuf = true
  /-- Every payload byte captured so far has been written since reset (R210). -/
  pay_written : ∀ i, i < s.received → ∃ b, Paybuf.read s.paybuf i = some b
  /-- CNT never passes the frame's length, so never passes 262 (R29). -/
  cnt_le : s.cnt.toNat ≤ s.len.toNat + Config.overheadBytes
  /-- While CNT < 4, LEN is 0 (R28). -/
  len_zero : s.cnt.toNat < 4 → s.len = 0
  /-- SUM is the exact sum of the payload bytes received so far (R32). -/
  sum_exact : s.sum.toNat = byteSum (s.payBytes s.received)
  /-- A register of a frame byte not yet captured is 0, as START and reset leave it (R26, R27, R30, R31, R33). -/
  sof_zero : s.cnt.toNat ≤ 0 → s.sof = 0
  rxreg_zero : s.cnt.toNat ≤ 1 → s.rxreg = 0
  errflag_zero : s.cnt.toNat ≤ 2 → s.errflag = 0
  rxchk_zero : s.cnt.toNat ≤ s.len.toNat + 4 → s.rxchk = 0
  rxchk_low_zero : s.cnt.toNat ≤ s.len.toNat + 5 → s.rxchk.extractLsb' 0 8 = 0
  eof_zero : s.cnt.toNat ≤ s.len.toNat + 6 → s.eof = 0
  /-- CALCCHK reads 0 until the frame's last byte, then CHECKSUM(LEN, payload) (R34). -/
  calcchk_zero : s.cnt.toNat < s.len.toNat + Config.overheadBytes → s.calcchk = 0
  calcchk_full : s.cnt.toNat = s.len.toNat + Config.overheadBytes →
    s.calcchk = checksum s.len.toNat (s.payBytes s.len.toNat)
  /-- IDLE: no frame is expected and no verdict stands (R23, R24). -/
  idle : s.fsm = .idle → s.verdict = .none
  /-- RECV: the frame is not complete and no verdict stands (R23, R24). -/
  recv : s.fsm = .recv → s.verdict = .none ∧ s.cnt.toNat < s.len.toNat + Config.overheadBytes
  /-- DONE: CNT = LEN + 7 and VERDICT is the first failing check, or OK (R29, R113, R184). -/
  done : s.fsm = .done →
    s.cnt.toNat = s.len.toNat + Config.overheadBytes ∧
    s.verdict = verdictOf s.errflag s.rxreg s.expreg s.rxchk s.calcchk

/-- Two states the host cannot tell apart by any later command: they differ at most in PAYBUF and in `epoch`, and
agree on every payload byte that a later RDPAY can return (R42). -/
structure State.SameToHost (s t : State) : Prop where
  /-- Every register, output and later move of the host is the same. -/
  registers : t = { s with paybuf := t.paybuf, epoch := t.epoch }
  /-- In RECV, the payload bytes received so far agree. -/
  receiving : s.fsm = .recv → ∀ i, i < s.received → s.payByte i = t.payByte i
  /-- In DONE with VERDICT OK, the payload agrees. -/
  readable : s.fsm = .done → s.verdict = .ok → ∀ i, i < s.len.toNat → s.payByte i = t.payByte i

/-- The commands of the pseudo-instruction RXFRAME (R79): START r, then one BYTE for each byte of F, in order. -/
def rxframe (r : Byte) (F : List Byte) : List Instr := .start r :: F.map .byte

/-- The host issuing commands one after another. -/
def issues (is : List Instr) : List HostInput := is.map (fun i => .command (encode i))

/-- A run of k steps answers this state (no fault, no refusal). -/
def Runs (k : Nat) (s t : State) : Prop := Host.Core.run Sys2Proof.core k s = .next t

end Sys2Proof.Machine
end

