-- ==== Sys2Proof/Certificates/Slice0/Obligations.lean ====
section
/-! DEFINITION. The statements for the provers, from the numbered rules of spec/ in its order: encoding, registers,
payload buffer, frame codec, decoders, outcomes, reset, and the whole receiver. Fields of a word are written
`w.extractLsb' lo width`, so that a statement does not rest on the decoder's own accessors. -/

open Sys2Proof Sys2Proof.Machine Sys2Proof.Machine.Reference

/-! Encoding (30_encoding.md). -/

/-- Decoding the word of a well-formed command gives the command back, for every operand value (R70 to R73, R78). -/
def Obligations.DecodeOfEncodeIsTheCommand : Prop :=
  ∀ i : Instr, i.wellFormed = true → decode (encode i) = .command i

/-- A word that decodes is the word of a well-formed command, up to the fields R72 calls ignored: the encoding of
the decoded command is the word with its ignored fields set to 0. -/
def Obligations.EncodeOfDecodeClearsIgnoredFields : Prop :=
  ∀ (w : Word) (i : Instr), decode w = .command i →
    i.wellFormed = true ∧
    encode i = w &&& (match i with
      | .nop => 0xFF000000
      | .start _ => 0xFFFF0000
      | .byte _ => 0xFFFF0000
      | .abort => 0xFF000000
      | .rdpay _ => 0xFFFF0000
      | .rdreg _ => 0xFFFF0000
      | .ddate _ => 0xFF00FFFF
      | .dprot _ => 0xFF00FFFF
      | .dbal _ _ => 0xFFFFFFFF
      | .dcd _ => 0xFF00FFFF)

/-- R73: which words are legal, and that every other word is executed as `raise Illegal()`: CAUSE = 1, RESP = 0, no
state change. -/
def Obligations.LegalWordsAndNoOthersDecode : Prop :=
  ∀ w : Word,
    ((∃ i, decode w = .command i) ↔
      w.extractLsb' 24 4 = 0 ∧
      (w.extractLsb' 28 4 ∈ ([0x0, 0x1, 0x2, 0x3, 0x4, 0x5, 0x8, 0x9, 0xA, 0xB] : List (BitVec 4))) ∧
      (w.extractLsb' 28 4 = 0x5 → (w.extractLsb' 16 8).toNat ≤ 3)) ∧
    ((¬ ∃ i, decode w = .command i) →
      ∀ s : State, runWord w s = .next { s with resp := 0, cause := .illegal })

/-- R77: the dispatch on OP, with RSV != 0 illegal first, for every value of the fields the command ignores. -/
def Obligations.DispatchFollowsTheOpcodeMap : Prop :=
  ∀ w : Word,
    (w.extractLsb' 24 4 ≠ 0 → ∀ i, decode w ≠ .command i) ∧
    (w.extractLsb' 24 4 = 0 →
      (w.extractLsb' 28 4 = 0x0 → decode w = .command .nop) ∧
      (w.extractLsb' 28 4 = 0x1 → decode w = .command (.start (w.extractLsb' 16 8))) ∧
      (w.extractLsb' 28 4 = 0x2 → decode w = .command (.byte (w.extractLsb' 16 8))) ∧
      (w.extractLsb' 28 4 = 0x3 → decode w = .command .abort) ∧
      (w.extractLsb' 28 4 = 0x4 → decode w = .command (.rdpay (w.extractLsb' 16 8))) ∧
      (w.extractLsb' 28 4 = 0x5 → (w.extractLsb' 16 8).toNat ≤ 3 →
        decode w = .command (.rdreg (w.extractLsb' 16 8))) ∧
      (w.extractLsb' 28 4 = 0x5 → 3 < (w.extractLsb' 16 8).toNat → ∀ i, decode w ≠ .command i) ∧
      (w.extractLsb' 28 4 = 0x8 → decode w = .command (.ddate (w.extractLsb' 0 16))) ∧
      (w.extractLsb' 28 4 = 0x9 → decode w = .command (.dprot (w.extractLsb' 0 16))) ∧
      (w.extractLsb' 28 4 = 0xA → decode w = .command (.dbal (w.extractLsb' 16 8) (w.extractLsb' 0 16))) ∧
      (w.extractLsb' 28 4 = 0xB → decode w = .command (.dcd (w.extractLsb' 0 16))) ∧
      (w.extractLsb' 28 4 ∈ ([0x6, 0x7, 0xC, 0xD, 0xE, 0xF] : List (BitVec 4)) → ∀ i, decode w ≠ .command i))

/-- R80: the worked encodings, read and written, and the two illegal words. -/
def Obligations.WorkedEncodingsReadAndWrite : Prop :=
  decode 0x10040000 = .command (.start 0x04) ∧ encode (.start 0x04) = 0x10040000 ∧
  decode 0x20DD0000 = .command (.byte 0xDD) ∧ encode (.byte 0xDD) = 0x20DD0000 ∧
  decode 0x40070000 = .command (.rdpay 7) ∧ encode (.rdpay 7) = 0x40070000 ∧
  decode 0x50020000 = .command (.rdreg 2) ∧ encode (.rdreg 2) = 0x50020000 ∧
  decode 0x80002842 = .command (.ddate 0x2842) ∧ encode (.ddate 0x2842) = 0x80002842 ∧
  decode 0xA0040005 = .command (.dbal 4 0x0005) ∧ encode (.dbal 4 0x0005) = 0xA0040005 ∧
  decode 0xB0000003 = .command (.dcd 0x0003) ∧ encode (.dcd 0x0003) = 0xB0000003 ∧
  (∀ i, decode 0x60000000 ≠ .command i) ∧ (∀ i, decode 0x11030000 ≠ .command i)

/-- The assembler's word for a command with operands that fit is the encoder's, and an operand that does not fit is an
error (R78). RDREG assembles any number up to 255. -/
def Obligations.AssemblerWritesTheEncodedWord : Prop :=
  ∀ x y : Nat,
    Assembler.assembleLine .nop = .ok [encode .nop] ∧
    Assembler.assembleLine .abort = .ok [encode .abort] ∧
    (x ≤ 255 →
      Assembler.assembleLine (.start x) = .ok [encode (.start (BitVec.ofNat 8 x))] ∧
      Assembler.assembleLine (.byte x) = .ok [encode (.byte (BitVec.ofNat 8 x))] ∧
      Assembler.assembleLine (.rdpay x) = .ok [encode (.rdpay (BitVec.ofNat 8 x))] ∧
      Assembler.assembleLine (.rdreg x) = .ok [encode (.rdreg (BitVec.ofNat 8 x))]) ∧
    (255 < x →
      Assembler.assembleLine (.start x) = .error .operandRange ∧
      Assembler.assembleLine (.byte x) = .error .operandRange ∧
      Assembler.assembleLine (.rdpay x) = .error .operandRange ∧
      Assembler.assembleLine (.rdreg x) = .error .operandRange) ∧
    (y ≤ 65535 →
      Assembler.assembleLine (.ddate y) = .ok [encode (.ddate (BitVec.ofNat 16 y))] ∧
      Assembler.assembleLine (.dprot y) = .ok [encode (.dprot (BitVec.ofNat 16 y))] ∧
      Assembler.assembleLine (.dcd y) = .ok [encode (.dcd (BitVec.ofNat 16 y))]) ∧
    (65535 < y →
      Assembler.assembleLine (.ddate y) = .error .operandRange ∧
      Assembler.assembleLine (.dprot y) = .error .operandRange ∧
      Assembler.assembleLine (.dcd y) = .error .operandRange) ∧
    (x ≤ 255 → y ≤ 65535 →
      Assembler.assembleLine (.dbal y x) = .ok [encode (.dbal (BitVec.ofNat 8 x) (BitVec.ofNat 16 y))]) ∧
    (255 < x ∨ 65535 < y → Assembler.assembleLine (.dbal y x) = .error .operandRange)

/-! Steps and outcomes (60_exceptions.md). -/

/-- When the host's next move is a word that decodes to a command, the step is exec of that command with the move
consumed; the model adds nothing else (R14, R59, R77). -/
def Obligations.StepExecutesTheIssuedCommand : Prop :=
  ∀ (s : State) (w : Word) (i : Instr) (rest : List HostInput),
    s.host = .command w :: rest → decode w = .command i → step s = exec i { s with host := rest }

/-- Every step answers a next state, in every state. No rule says this in so many words: it is the model's reading,
log 9 (nothing stops the block; deduced from R73, R181, R182 and R188, which give every word its answer) and, where the
host has issued nothing, log 3 (the block waits; deduced from R211, R119 and R221). That the host's move is the head of
a list is log 1, and that reset is a move of its own (R210) is log 11. -/
def Obligations.EveryStepAnswersANextState : Prop := ∀ s : State, ∃ t, step s = .next t

/-- R181: an illegal word's effect is RESP 0 and CAUSE 1; no register, flag or PAYBUF byte changes and DONE keeps its
level. -/
def Obligations.IllegalWordChangesOnlyTheResponse : Prop :=
  ∀ (s : State) (w : Word) (rest : List HostInput), s.host = .command w :: rest →
    (w.extractLsb' 24 4 ≠ 0 ∨
      w.extractLsb' 28 4 ∈ ([0x6, 0x7, 0xC, 0xD, 0xE, 0xF] : List (BitVec 4)) ∨
      (w.extractLsb' 28 4 = 0x5 ∧ 4 ≤ (w.extractLsb' 16 8).toNat)) →
    step s = .next { s with host := rest, resp := 0, cause := .illegal } ∧
    Cause.illegal.code = 1 ∧
    (∀ t, step s = .next t → t.done = s.done ∧ ∀ k, t.payByte k = s.payByte k)

/-- R182: START in RECV and BYTE in IDLE or DONE answer RESP = STAT and CAUSE 2; no state changes. -/
def Obligations.RejectedCommandChangesOnlyTheResponse : Prop :=
  ∀ (s : State) (a : Byte),
    (s.fsm = .recv → exec (.start a) s = .next { s with resp := s.stat, cause := .rejected }) ∧
    (s.fsm = .idle ∨ s.fsm = .done → exec (.byte a) s = .next { s with resp := s.stat, cause := .rejected }) ∧
    Cause.rejected.code = 2

/-- R180: every command word returns a CAUSE: 1 exactly on an illegal word, 2 exactly on a legal START in RECV or BYTE
outside RECV, 0 on every other; 3 never. -/
def Obligations.EveryCommandReturnsItsCause : Prop :=
  ∀ (w : Word) (s : State), ∃ t, runWord w s = .next t ∧
    (t.cause.code = 1 ↔ ∀ i, decode w ≠ .command i) ∧
    (t.cause.code = 2 ↔
      (s.fsm = .recv ∧ ∃ a, decode w = .command (.start a)) ∨
      (s.fsm ≠ .recv ∧ ∃ a, decode w = .command (.byte a))) ∧
    (t.cause.code = 0 ↔
      (∃ i, decode w = .command i) ∧
      ¬ (s.fsm = .recv ∧ ∃ a, decode w = .command (.start a)) ∧
      ¬ (s.fsm ≠ .recv ∧ ∃ a, decode w = .command (.byte a))) ∧
    t.cause.code ≠ 3

/-- R187: the illegal check comes before the state check, in every state; and a frame verdict is written only by an
accepted BYTE, so never together with a non-zero CAUSE. -/
def Obligations.IllegalCheckComesFirst : Prop :=
  ∀ (w : Word) (s t : State), runWord w s = .next t →
    ((∀ i, decode w ≠ .command i) → t.cause.code = 1) ∧
    (t.verdict ≠ s.verdict → t.verdict ≠ .none →
      t.cause.code = 0 ∧ s.fsm = .recv ∧ ∃ a, decode w = .command (.byte a))

/-- R41: DONE is the level STATE == 2, and no command's behaviour depends on the RESP or CAUSE of the one before: run
from states that differ only in these outputs, a command gives the same next state. -/
def Obligations.OutputsAreNoConditionCodes : Prop :=
  (∀ s : State, s.done = true ↔ s.fsm.code = 2) ∧
  (∀ (i : Instr) (s : State) (r : Word) (c : Cause), exec i { s with resp := r, cause := c } = exec i s) ∧
  (∀ (i : Instr) (s : State), ∃ t, exec i s = .next t)

/-! Registers and their fields (10_state.md). -/

/-- R36 to R39: every field of STAT, POS, CHKS and ACC in every state, and that all four read 0 at reset. -/
def Obligations.StatusRegistersShowTheirFields : Prop :=
  (∀ s : State,
    (s.stat.extractLsb' 0 2 = s.fsm.code ∧ s.stat.extractLsb' 2 3 = s.verdict.code ∧ s.stat.extractLsb' 5 3 = 0 ∧
      s.stat.extractLsb' 8 8 = s.len ∧ s.stat.extractLsb' 16 8 = s.expreg ∧ s.stat.extractLsb' 24 8 = s.rxreg) ∧
    (s.pos.extractLsb' 0 9 = s.cnt ∧ s.pos.extractLsb' 9 7 = 0 ∧ s.pos.extractLsb' 16 8 = s.errflag ∧
      s.pos.extractLsb' 24 8 = s.sof) ∧
    (s.chks.extractLsb' 16 16 = s.rxchk ∧ s.chks.extractLsb' 0 16 = s.calcchk) ∧
    (s.acc.extractLsb' 0 16 = s.sum ∧ s.acc.extractLsb' 16 8 = s.eof ∧ s.acc.extractLsb' 24 8 = 0)) ∧
  State.reset.stat = 0 ∧ State.reset.pos = 0 ∧ State.reset.chks = 0 ∧ State.reset.acc = 0

/-- R23: the codes of STATE, and its moves, both ways: START from IDLE or DONE to RECV, the last byte of a frame from
RECV to DONE, ABORT (and reset, R210) from any state to IDLE, and nothing else. -/
def Obligations.ReceiverStateMovesOnlyAsNamed : Prop :=
  RxState.idle.code = 0 ∧ RxState.recv.code = 1 ∧ RxState.done.code = 2 ∧ (∀ f : RxState, f.code ≠ 3) ∧
  (∀ (s t : State) (a : Byte), exec (.start a) s = .next t → s.fsm ≠ .recv → t.fsm = .recv) ∧
  (∀ (s t : State) (b : Byte), exec (.byte b) s = .next t → s.fsm = .recv → s.cnt.toNat = 6 + s.len.toNat →
    t.fsm = .done) ∧
  (∀ s t : State, exec .abort s = .next t → t.fsm = .idle) ∧
  (∀ s t : State, step s = .next t → t.fsm ≠ s.fsm →
    ∃ m rest, s.host = m :: rest ∧
      ((m = .reset ∧ t.fsm = .idle) ∨
       (∃ w, m = .command w ∧
         ((decode w = .command .abort ∧ t.fsm = .idle) ∨
          ((∃ a, decode w = .command (.start a)) ∧ s.fsm ≠ .recv ∧ t.fsm = .recv) ∨
          ((∃ b, decode w = .command (.byte b)) ∧ s.fsm = .recv ∧ s.cnt.toNat = 6 + s.len.toNat ∧
            t.fsm = .done)))))

/-- R24: the codes of VERDICT; that it is NONE exactly while no frame has completed since the last START, ABORT or reset
(where the receiver's invariant holds, exactly outside DONE); and that only START, ABORT and reset (to NONE) and the last byte of a frame (to OK or
one of the three errors) write it. -/
def Obligations.VerdictIsWrittenOnlyAsNamed : Prop :=
  Verdict.none.code = 0 ∧ Verdict.ok.code = 1 ∧ Verdict.deviceError.code = 2 ∧
  Verdict.protocolMismatch.code = 3 ∧ Verdict.checksumError.code = 4 ∧
  (∀ v : Verdict, v.code.toNat < 5) ∧
  (∀ s : State, s.Inv → (s.verdict = .none ↔ s.fsm ≠ .done)) ∧
  (∀ s t : State, step s = .next t → t.verdict ≠ s.verdict →
    ∃ m rest, s.host = m :: rest ∧
      ((m = .reset ∧ t.verdict = .none) ∨
       (∃ w, m = .command w ∧
         ((decode w = .command .abort ∧ t.verdict = .none) ∨
          ((∃ a, decode w = .command (.start a)) ∧ s.fsm ≠ .recv ∧ t.verdict = .none) ∨
          ((∃ b, decode w = .command (.byte b)) ∧ s.fsm = .recv ∧ s.cnt.toNat = 6 + s.len.toNat ∧
            t.verdict ≠ .none)))))

/-- R40: no register field is written by a word other than START, BYTE and ABORT; RDREG with a number 4 to 255 is
illegal. EXPREG is written by no BYTE and no ABORT (R25). -/
def Obligations.OnlyStartByteAbortWriteRegisters : Prop :=
  (∀ (w : Word) (s t : State), runWord w s = .next t →
    (∀ a, decode w ≠ .command (.start a)) → (∀ b, decode w ≠ .command (.byte b)) → decode w ≠ .command .abort →
    t = { s with resp := t.resp, cause := t.cause }) ∧
  (∀ (a : Byte) (s : State), 4 ≤ a.toNat → exec (.rdreg a) s = .next { s with resp := 0, cause := .illegal }) ∧
  (∀ (b : Byte) (s t : State), exec (.byte b) s = .next t → t.expreg = s.expreg) ∧
  (∀ s t : State, exec .abort s = .next t → t.expreg = s.expreg)

/-! The frame codec's commands (40_frame_codec.md). -/

/-- R118: NOP with any A and V answers STAT and changes no state; with non-zero RSV it is illegal; from reset RESP is
0. -/
def Obligations.NopAnswersStat : Prop :=
  (∀ s : State, exec .nop s = .next { s with resp := s.stat, cause := .accepted }) ∧
  (∀ w : Word, w.extractLsb' 28 4 = 0 → w.extractLsb' 24 4 = 0 → decode w = .command .nop) ∧
  (∀ w : Word, w.extractLsb' 28 4 = 0 → w.extractLsb' 24 4 ≠ 0 → ∀ i, decode w ≠ .command i) ∧
  exec .nop State.reset = .next { State.reset with resp := 0, cause := .accepted }

/-- R110: START outside RECV sets STATE to RECV, EXPREG to A and every other receiver register to 0, and answers STAT;
PAYBUF is not written, its old bytes become unreadable and DONE falls. In RECV it is REJECTED. The word of START
carries A in bits 23:16. -/
def Obligations.StartArmsTheReceiver : Prop :=
  (∀ (w : Word), w.extractLsb' 28 4 = 0x1 → w.extractLsb' 24 4 = 0 →
    decode w = .command (.start (w.extractLsb' 16 8))) ∧
  (∀ (s : State) (a : Byte), s.fsm ≠ .recv →
    exec (.start a) s = .next
      { s with
        fsm := .recv, verdict := .none, expreg := a, sof := 0, rxreg := 0, errflag := 0, len := 0, cnt := 0, sum := 0
        rxchk := 0, calcchk := 0, eof := 0, resp := (0#8) ++ a ++ (0x0001#16), cause := .accepted } ∧
    (∀ t, exec (.start a) s = .next t →
      t.done = false ∧ (∀ k, t.payByte k = s.payByte k) ∧
      ∀ i, exec (.rdpay i) t = .next { t with resp := 0, cause := .accepted })) ∧
  (∀ (s : State) (a : Byte), s.fsm = .recv →
    exec (.start a) s = .next { s with resp := s.stat, cause := .rejected })

/-- R112: what an accepted BYTE stores, by the frame offset k = CNT, register by register, and the frame: every
register and every PAYBUF byte the offset does not name keeps its value. The payload byte goes to index k - 4, the
first checksum byte to the high half of RXCHK; SUM never wraps where the receiver's invariant holds (R32). (With k above 6 + LEN, which no run reaches, nothing is said of EOF;
log 8.) -/
def Obligations.ByteStoresByFrameOffset : Prop :=
  ∀ (s : State) (b : Byte), s.fsm = .recv →
    ∃ t, exec (.byte b) s = .next t ∧
      t.expreg = s.expreg ∧ t.host = s.host ∧ t.epoch = s.epoch ∧
      t.sof = (if s.cnt.toNat = 0 then b else s.sof) ∧
      t.rxreg = (if s.cnt.toNat = 1 then b else s.rxreg) ∧
      t.errflag = (if s.cnt.toNat = 2 then b else s.errflag) ∧
      t.len = (if s.cnt.toNat = 3 then b else s.len) ∧
      t.sum = (if s.cnt.toNat = 3 then 0
        else if 4 ≤ s.cnt.toNat ∧ s.cnt.toNat < 4 + s.len.toNat then s.sum + b.setWidth 16 else s.sum) ∧
      t.rxchk.extractLsb' 8 8 =
        (if 4 ≤ s.cnt.toNat ∧ s.cnt.toNat = 4 + s.len.toNat then b else s.rxchk.extractLsb' 8 8) ∧
      t.rxchk.extractLsb' 0 8 =
        (if 4 ≤ s.cnt.toNat ∧ s.cnt.toNat = 5 + s.len.toNat then b else s.rxchk.extractLsb' 0 8) ∧
      (s.Inv → 4 ≤ s.cnt.toNat → s.cnt.toNat < 4 + s.len.toNat → t.sum.toNat = s.sum.toNat + b.toNat) ∧
      (4 ≤ s.cnt.toNat → s.cnt.toNat = 6 + s.len.toNat → t.eof = b) ∧
      (s.cnt.toNat < 4 ∨ s.cnt.toNat < 6 + s.len.toNat → t.eof = s.eof) ∧
      ∀ i, t.payByte i =
        (if 4 ≤ s.cnt.toNat ∧ s.cnt.toNat < 4 + s.len.toNat ∧ i = s.cnt.toNat - 4 then b else s.payByte i)

/-- R111: an accepted BYTE counts, answers STAT with CAUSE 0, and completes the frame exactly when the count before it
is 6 + LEN; until then STATE stays RECV and VERDICT and CALCCHK keep their values (R113). Outside RECV it is REJECTED
and nothing is stored. -/
def Obligations.ByteCountsUntilTheStopByte : Prop :=
  (∀ (s : State) (b : Byte), s.fsm = .recv →
    ∃ t, exec (.byte b) s = .next t ∧ t.cnt = s.cnt + 1 ∧ t.resp = t.stat ∧ t.cause = .accepted ∧
      (t.fsm = .done ↔ s.cnt.toNat = 6 + s.len.toNat) ∧
      (s.cnt.toNat ≠ 6 + s.len.toNat → t.fsm = .recv ∧ t.verdict = s.verdict ∧ t.calcchk = s.calcchk)) ∧
  (∀ (s : State) (b : Byte), s.fsm ≠ .recv →
    exec (.byte b) s = .next { s with resp := s.stat, cause := .rejected })

/-- R113, R184: the BYTE that delivers the stop byte computes CALCCHK whatever the verdict, sets VERDICT to the first
failing check in the order error flag, register echo, checksum, and sets STATE to DONE. -/
def Obligations.StopByteComputesTheVerdict : Prop :=
  ∀ (s : State) (b : Byte), s.fsm = .recv → s.cnt.toNat = 6 + s.len.toNat →
    let c : Half := BitVec.ofInt 16 ((s.sum.toNat : Int) + (s.len.toNat : Int) - 1) ^^^ 0xFFFF
    ∃ t, exec (.byte b) s = .next t ∧
      t = { s with fsm := .done, verdict := t.verdict, calcchk := c, eof := b, cnt := s.cnt + 1, resp := t.stat
                   cause := .accepted } ∧
      (s.errflag ≠ 0 → t.verdict = .deviceError) ∧
      (s.errflag = 0 → s.rxreg ≠ s.expreg → t.verdict = .protocolMismatch) ∧
      (s.errflag = 0 → s.rxreg = s.expreg → s.rxchk ≠ c → t.verdict = .checksumError) ∧
      (s.errflag = 0 → s.rxreg = s.expreg → s.rxchk = c → t.verdict = .ok)

/-- R115: ABORT in every state: STATE IDLE, VERDICT NONE, every other register and every PAYBUF byte kept, RESP = STAT,
and no payload index is readable after it. -/
def Obligations.AbortDiscardsTheFrame : Prop :=
  (∀ w : Word, w.extractLsb' 28 4 = 0x3 → w.extractLsb' 24 4 = 0 → decode w = .command .abort) ∧
  (∀ s : State,
    exec .abort s = .next
      { s with fsm := .idle, verdict := .none, resp := s.rxreg ++ s.expreg ++ s.len ++ (0#8), cause := .accepted } ∧
    (∀ t, exec .abort s = .next t →
      t.done = false ∧ (∀ k, t.payByte k = s.payByte k) ∧
      ∀ i, exec (.rdpay i) t = .next { t with resp := 0, cause := .accepted }))

/-- R116: RDPAY answers RESP[8] = 1 and PAYBUF[A] when STATE = DONE, VERDICT = OK and A < LEN, else 0; no state change
and CAUSE 0 in both cases; index 255 is never valid, and none is after an error verdict or with LEN = 0. What an
unwritten byte reads as is a free value (log 5); no run reads one (`ReadablePayloadByteWasReceived`). -/
def Obligations.RdpayReadsOnlyAValidPayload : Prop :=
  (∀ w : Word, w.extractLsb' 28 4 = 0x4 → w.extractLsb' 24 4 = 0 →
    decode w = .command (.rdpay (w.extractLsb' 16 8))) ∧
  (∀ (s : State) (a : Byte),
    (s.fsm = .done → s.verdict = .ok → a.toNat < s.len.toNat →
      exec (.rdpay a) s = .next { s with resp := (0#23) ++ (1#1) ++ s.payByte a.toNat, cause := .accepted }) ∧
    (¬ (s.fsm = .done ∧ s.verdict = .ok ∧ a.toNat < s.len.toNat) →
      exec (.rdpay a) s = .next { s with resp := 0, cause := .accepted })) ∧
  (∀ s : State, exec (.rdpay 255) s = .next { s with resp := 0, cause := .accepted }) ∧
  (∀ (s : State) (a : Byte), s.len = 0 ∨ s.verdict ≠ .ok →
    exec (.rdpay a) s = .next { s with resp := 0, cause := .accepted })

/-- In a state that meets the receiver's invariant, a valid RDPAY returns a byte that BYTE has written since reset, so
no free value (R42, R210). -/
def Obligations.ReadablePayloadByteWasReceived : Prop :=
  ∀ (s : State) (a : Byte), s.Inv → s.fsm = .done → s.verdict = .ok → a.toNat < s.len.toNat →
    ∃ b, Paybuf.read s.paybuf a.toNat = some b ∧
      exec (.rdpay a) s = .next { s with resp := (0#23) ++ (1#1) ++ b, cause := .accepted }

/-- R117: RDREG answers the register of its number in every state, changing nothing; a number of 4 or more is illegal. -/
def Obligations.RdregAnswersTheNumberedRegister : Prop :=
  (∀ w : Word, w.extractLsb' 28 4 = 0x5 → w.extractLsb' 24 4 = 0 → (w.extractLsb' 16 8).toNat ≤ 3 →
    decode w = .command (.rdreg (w.extractLsb' 16 8))) ∧
  (∀ s : State,
    exec (.rdreg 0) s = .next { s with resp := s.stat, cause := .accepted } ∧
    exec (.rdreg 1) s = .next { s with resp := s.pos, cause := .accepted } ∧
    exec (.rdreg 2) s = .next { s with resp := s.chks, cause := .accepted } ∧
    exec (.rdreg 3) s = .next { s with resp := s.acc, cause := .accepted } ∧
    ∀ a : Byte, 4 ≤ a.toNat → exec (.rdreg a) s = .next { s with resp := 0, cause := .illegal }) ∧
  (∀ (w : Word) (s : State), w.extractLsb' 28 4 = 0x5 → 4 ≤ (w.extractLsb' 16 8).toNat →
    runWord w s = .next { s with resp := 0, cause := .illegal })

/-- R57: NOP, RDPAY, RDREG and the four decoders change no state but their response and, repeated, return the same RESP
and CAUSE; START, BYTE and ABORT do change state. -/
def Obligations.ReadOnlyCommandsAreIdempotent : Prop :=
  (∀ (i : Instr) (s : State),
    (match i with
      | .nop => True | .rdpay _ => True | .rdreg _ => True
      | .ddate _ => True | .dprot _ => True | .dbal _ _ => True | .dcd _ => True
      | .start _ => False | .byte _ => False | .abort => False) →
    ∃ t, exec i s = .next t ∧ t = { s with resp := t.resp, cause := t.cause } ∧ exec i t = .next t) ∧
  (∀ (s : State) (a : Byte), s.fsm ≠ .recv → ∃ t, exec (.start a) s = .next t ∧ t.fsm ≠ s.fsm) ∧
  (∀ (s : State) (b : Byte), s.fsm = .recv → ∃ t, exec (.byte b) s = .next t ∧ t.cnt ≠ s.cnt) ∧
  (∀ s : State, s.fsm ≠ .idle → ∃ t, exec .abort s = .next t ∧ t.fsm ≠ s.fsm)

/-! The bit-field decoders (41_bitfield.md). -/

/-- R151: DDATE, DPROT, DBAL and DCD answer from their operands alone, in every state, with CAUSE 0, and write nothing
but the response. -/
def Obligations.DecodersAreCombinational : Prop :=
  ∀ i : Instr,
    (match i with
      | .ddate _ => True | .dprot _ => True | .dbal _ _ => True | .dcd _ => True
      | .nop => False | .start _ => False | .byte _ => False | .abort => False | .rdpay _ => False
      | .rdreg _ => False) →
    ∃ r : Word, ∀ s : State, exec i s = .next { s with resp := r, cause := .accepted }

/-- R152, R153: DDATE's year, month and day, as the document's formulas give them and in their places in RESP, nothing
validated, the other bits 0. -/
def Obligations.DdateUnpacksYearMonthDay : Prop :=
  ∀ (v : Half) (s : State), ∃ r : Word,
    exec (.ddate v) s = .next { s with resp := r, cause := .accepted } ∧
    (r.extractLsb' 16 16).toNat = 2000 + v.toNat / 512 ∧
    (r.extractLsb' 8 4).toNat = v.toNat / 32 % 16 ∧
    (r.extractLsb' 0 5).toNat = v.toNat % 32 ∧
    r.extractLsb' 12 4 = 0 ∧ r.extractLsb' 5 3 = 0 ∧
    decodeDate v =
      { year := (r.extractLsb' 16 16).toNat, month := (r.extractLsb' 8 4).toNat, day := (r.extractLsb' 0 5).toNat }

/-- R155, R156: RESP[k] is V[k] for k in 0 to 12 and 0 above, and the active set is the members whose bit is set in
RESP; V's bits 13 to 15 change nothing. -/
def Obligations.DprotAnswersTheActiveSet : Prop :=
  (∀ (v : Half) (s : State), ∃ r : Word,
    exec (.dprot v) s = .next { s with resp := r, cause := .accepted } ∧
    (∀ k, r.getLsbD k = (decide (k ≤ 12) && v.getLsbD k)) ∧
    (∀ p : ProtectionState, p ∈ decodeProtectionStates v ↔ r.getLsbD p.bit = true)) ∧
  (∀ (v v' : Half) (s : State), v.extractLsb' 0 13 = v'.extractLsb' 0 13 → exec (.dprot v) s = exec (.dprot v') s)

/-- R158 to R160: RESP[23:16] is the cell count; RESP[i] is V[i] for i below min(n, 16) and 0 from there to bit 15; the
decoded list has n elements in cell order, element i being bit i of RESP for i < 16 and false above. -/
def Obligations.DbalAnswersTheBalanceList : Prop :=
  ∀ (v : Half) (n : Byte) (s : State), ∃ r : Word,
    exec (.dbal n v) s = .next { s with resp := r, cause := .accepted } ∧
    r.extractLsb' 16 8 = n ∧ r.extractLsb' 24 8 = 0 ∧
    (∀ i, i < 16 → r.getLsbD i = (decide (i < n.toNat) && v.getLsbD i)) ∧
    (decodeBalanceStates v n).length = n.toNat ∧
    (∀ i, i < n.toNat → (decodeBalanceStates v n)[i]? = some (decide (i < 16) && r.getLsbD i)) ∧
    (n = 0 → r = 0)

/-- R161, R162: RESP[0] = V[0] is discharging, RESP[1] = V[1] is charging, the other bits of RESP are 0 and the other
bits of V change nothing. The bit assignment is R161's own (G3, log 12). -/
def Obligations.DcdAnswersTheTwoFlags : Prop :=
  (∀ (v : Half) (s : State), ∃ r : Word,
    exec (.dcd v) s = .next { s with resp := r, cause := .accepted } ∧
    r.getLsbD 0 = (decodeChargeDischargeFlags v).discharging ∧
    r.getLsbD 1 = (decodeChargeDischargeFlags v).charging ∧
    r.getLsbD 0 = v.getLsbD 0 ∧ r.getLsbD 1 = v.getLsbD 1 ∧ r.extractLsb' 2 30 = 0) ∧
  (∀ (v v' : Half) (s : State), v.extractLsb' 0 2 = v'.extractLsb' 0 2 → exec (.dcd v) s = exec (.dcd v') s)

/-! The reference functions (40_frame_codec.md Part 1). -/

/-- R101: CHECKSUM is the exact sum plus L - 1, cut to 16 bits and complemented; cutting after the XOR gives the same;
it is the 16-bit negation of sum(S) + L; for S of exactly L bytes, L from 1 to 255, nothing wraps before the XOR; for
L = 0 it is 0; and the worked example. -/
def Obligations.ChecksumNegatesTheSum : Prop :=
  (∀ (L : Nat) (S : List Byte),
    checksum L S = BitVec.ofInt 16 ((byteSum S : Int) + (L : Int) - 1) ^^^ 0xFFFF ∧
    checksum L S = (BitVec.ofInt 32 ((byteSum S : Int) + (L : Int) - 1) ^^^ 0xFFFF).setWidth 16 ∧
    (checksum L S).toNat = (2 ^ 16 - (byteSum S + L) % 2 ^ 16) % 2 ^ 16) ∧
  (∀ (L : Nat) (S : List Byte), S.length = L → 1 ≤ L → L ≤ 255 →
    byteSum S + L - 1 ≤ 65279 ∧ (checksum L S).toNat = 65535 - (byteSum S + L - 1)) ∧
  checksum 0 [] = 0 ∧
  checksum 8 [0x0C, 0xE4, 0x0C, 0xE5, 0x0C, 0xE6, 0x0C, 0xE7] = 0xFC32

/-- R102, R103: VALIDATE's four steps in their order on a frame, the payload being a result of OK alone. -/
def Obligations.ValidateReportsTheFirstFailingStep : Prop :=
  ∀ (r : Byte) (F : List Byte), isFrame F →
    (F.getD 2 0 ≠ 0 → validate r F = some .deviceError) ∧
    (F.getD 2 0 = 0 → F.getD 1 0 ≠ r → validate r F = some .protocolMismatch) ∧
    (F.getD 2 0 = 0 → F.getD 1 0 = r →
      F.getD (F.length - 3) 0 ++ F.getD (F.length - 2) 0 ≠ checksum (F.getD 3 0).toNat ((F.drop 4).take (F.length - 7)) →
      validate r F = some .checksumError) ∧
    (F.getD 2 0 = 0 → F.getD 1 0 = r →
      F.getD (F.length - 3) 0 ++ F.getD (F.length - 2) 0 = checksum (F.getD 3 0).toNat ((F.drop 4).take (F.length - 7)) →
      validate r F = some (.ok ((F.drop 4).take (F.length - 7)))) ∧
    (∀ v, validate r F = some v → (v.verdict = .ok ↔ ∃ p, v = .ok p))

/-- R107: CHECKSUM does not depend on the order of the payload bytes; the checksum VALIDATE recomputes covers no byte
but the length and the payload; XOR 0xFFFF is its own inverse. -/
def Obligations.ChecksumIgnoresOrderAndUncoveredBytes : Prop :=
  (∀ (L : Nat) (S T : List Byte), S.Perm T → checksum L S = checksum L T) ∧
  (∀ (F : List Byte) (i : Nat) (b : Byte), isFrame F → i < 3 ∨ 4 + frameLen F ≤ i →
    expectedChecksum (F.set i b) = expectedChecksum F) ∧
  (∀ x : Half, (x ^^^ 0xFFFF) ^^^ 0xFFFF = x)

/-- R104, R105: VALIDATE is refused exactly on a buffer whose length is not F[3] + 7, its result depends on neither the
start byte nor the stop byte, and the block completes a frame at exactly LEN + 7 bytes. -/
def Obligations.ValidateIgnoresStartAndStopBytes : Prop :=
  (∀ (r : Byte) (F : List Byte), validate r F = none ↔ ¬ F.length = (F.getD 3 0).toNat + 7) ∧
  (∀ (r : Byte) (F : List Byte) (b c : Byte), isFrame F →
    validate r ((F.set 0 b).set (F.length - 1) c) = validate r F) ∧
  (∀ s : State, s.Inv → s.fsm = .done → s.cnt.toNat = s.len.toNat + 7)

/-- R106: changing any single payload byte of a frame for which VALIDATE returns OK makes it return CHECKSUM_ERROR. -/
def Obligations.PayloadMutationIsAChecksumError : Prop :=
  ∀ (r : Byte) (F p : List Byte) (i : Nat) (b : Byte),
    validate r F = some (.ok p) → 4 ≤ i → i < 4 + frameLen F → b ≠ frameByte F i →
    validate r (F.set i b) = some .checksumError

/-! The payload's lifetime, DONE, reset and idling (20_memory.md, 60_exceptions.md, 70_reset_and_hazards.md). -/

/-- R186: DONE rises only when the last byte of a frame is accepted, whatever the verdict, and falls only on START,
ABORT and reset; on each of these it does. -/
def Obligations.DoneRisesAndFallsOnlyAsNamed : Prop :=
  (∀ s : State, s.done = true ↔ s.fsm.code = 2) ∧
  (∀ s t : State, s.done = false → step s = .next t →
    (t.done = true ↔
      ∃ w rest b, s.host = .command w :: rest ∧ decode w = .command (.byte b) ∧ s.fsm = .recv ∧
        s.cnt.toNat = 6 + s.len.toNat)) ∧
  (∀ s t : State, s.done = true → step s = .next t →
    (t.done = false ↔
      ∃ m rest, s.host = m :: rest ∧
        (m = .reset ∨ ∃ w, m = .command w ∧
          ((∃ a, decode w = .command (.start a)) ∨ decode w = .command .abort))))

/-- PAYBUF is written only by an accepted BYTE of the payload, at index CNT - 4, which is below 255 (R50); after reset its
bytes are unspecified (R210), so reset is the only other move after which a byte may differ. -/
def Obligations.PaybufIsWrittenOnlyByPayloadBytes : Prop :=
  ∀ (s t : State) (i : Nat), step s = .next t → t.payByte i ≠ s.payByte i →
    ∃ m rest, s.host = m :: rest ∧
      (m = .reset ∨ ∃ w b, m = .command w ∧ decode w = .command (.byte b) ∧ s.fsm = .recv ∧
        4 ≤ s.cnt.toNat ∧ s.cnt.toNat < 4 + s.len.toNat ∧ i = s.cnt.toNat - 4 ∧ i < 255 ∧ t.payByte i = b)

/-- A completed OK frame stays readable, byte for byte, through every move of the host but START, ABORT and reset; after
any of these three no index is readable; START and ABORT erase no PAYBUF byte (R62, R189). -/
def Obligations.PayloadLivesUntilStartAbortOrReset : Prop :=
  ∀ s t : State, s.fsm = .done → s.verdict = .ok → step s = .next t →
    (∀ m rest, s.host = m :: rest →
      (m = .reset ∨ ∃ w, m = .command w ∧ ((∃ a, decode w = .command (.start a)) ∨ decode w = .command .abort)) →
      (∀ i, exec (.rdpay i) t = .next { t with resp := 0, cause := .accepted }) ∧
      (m ≠ .reset → ∀ k, t.payByte k = s.payByte k)) ∧
    ((¬ ∃ m rest, s.host = m :: rest ∧
      (m = .reset ∨ ∃ w, m = .command w ∧ ((∃ a, decode w = .command (.start a)) ∨ decode w = .command .abort))) →
      t.fsm = .done ∧ t.verdict = .ok ∧ t.len = s.len ∧ ∀ k, t.payByte k = s.payByte k)

/-- R119, R222: after START and fewer bytes than the frame has, a host that issues no further command leaves the block in
RECV for ever, however many steps pass: there is no timeout. (That a step with nothing issued changes nothing is the
model's reading, log 3.) -/
def Obligations.ShortStreamStaysInRecv : Prop :=
  ∀ (s : State) (r : Byte) (F : List Byte) (k m : Nat), s.fsm ≠ .recv → isFrame F → k < F.length → k + 1 ≤ m →
    ∃ t, Runs m { s with host := issues (rxframe r (F.take k)) } t ∧ t.fsm = .recv ∧ t.verdict = .none ∧
      t.cnt.toNat = k ∧ t.host = []

/-- R210: reset in any state sets every register to its reset value, so that the four readable registers read 0 and
DONE is 0, abandoning any frame; and whatever bytes PAYBUF then holds, no later run of the host's moves shows them: two
blocks that differ only in PAYBUF after the reset answer alike at every step. -/
def Obligations.ResetSetsRegistersAndHidesPaybuf : Prop :=
  (∀ (s : State) (rest : List HostInput), s.host = .reset :: rest →
    ∃ t, step s = .next t ∧
      t.fsm = .idle ∧ t.verdict = .none ∧ t.expreg = 0 ∧ t.sof = 0 ∧ t.rxreg = 0 ∧ t.errflag = 0 ∧ t.len = 0 ∧
      t.cnt = 0 ∧ t.sum = 0 ∧ t.rxchk = 0 ∧ t.calcchk = 0 ∧ t.eof = 0 ∧ t.host = rest ∧
      t.stat = 0 ∧ t.pos = 0 ∧ t.chks = 0 ∧ t.acc = 0 ∧ t.done = false ∧
      (∀ (u : State) (k : Nat), u = { t with paybuf := u.paybuf, epoch := u.epoch } →
        ∃ t' u', Runs k t t' ∧ Runs k u u' ∧ u' = { t' with paybuf := u'.paybuf, epoch := u'.epoch })) ∧
  State.reset.stat = 0 ∧ State.reset.pos = 0 ∧ State.reset.chks = 0 ∧ State.reset.acc = 0 ∧
  State.reset.done = false

/-! The whole receiver. -/

/-- The state after reset meets the receiver's invariant (R22, R210). -/
def Obligations.ReceiverInvariantAtReset : Prop := State.reset.Inv

/-- Every step from a state that meets the receiver's invariant leads to one that does: PAYBUF's canonical form, CNT
against LEN (R28, R29), SUM exact and never wrapped (R32), uncaptured registers 0 (R26, R27, R33), CALCCHK 0 until the
stop byte (R34), and VERDICT in step with STATE (R23, R24). -/
def Obligations.ReceiverInvariantIsKept : Prop :=
  ∀ s t : State, s.Inv → step s = .next t → t.Inv

/-- R42: PAYBUF is hidden but for a valid RDPAY. Two states that agree on everything but PAYBUF, and on the payload
bytes a valid RDPAY can yet return, answer every move of the host alike and agree so again. And RESP[8] of RDPAY is 1
only with STATE = DONE, VERDICT = OK and the index below LEN. -/
def Obligations.HiddenPayloadBytesAreNeverObserved : Prop :=
  (∀ s t : State, s.SameToHost t → ∃ s' t', step s = .next s' ∧ step t = .next t' ∧ s'.SameToHost t') ∧
  (∀ (s t : State) (a : Byte), exec (.rdpay a) s = .next t → t.resp.getLsbD 8 = true →
    s.fsm = .done ∧ s.verdict = .ok ∧ a.toNat < s.len.toNat)

/-- R114: from any state with STATE not RECV, START r and the bytes of a frame F of n = F[3] + 7 bytes are accepted
command by command, STATE is RECV after each byte but the last, and after the last the registers hold VALIDATE(r, F)
and the frame's fields, and PAYBUF its payload; moves the host makes later are untouched. -/
def Obligations.ReceivingAFrameComputesValidate : Prop :=
  ∀ (s : State) (r : Byte) (F : List Byte) (later : List HostInput), s.fsm ≠ .recv → isFrame F →
    (∀ k, k < F.length → ∃ t, Runs (k + 1) { s with host := issues (rxframe r F) ++ later } t ∧
      t.cause = .accepted ∧ t.fsm = .recv) ∧
    (∃ t v, Runs (F.length + 1) { s with host := issues (rxframe r F) ++ later } t ∧
      t.cause = .accepted ∧ t.fsm = .done ∧
      validate r F = some v ∧ t.verdict = v.verdict ∧
      t.cnt.toNat = F.length ∧ t.expreg = r ∧ t.sof = frameByte F 0 ∧ t.rxreg = frameByte F 1 ∧
      t.errflag = frameByte F 2 ∧ t.len = frameByte F 3 ∧ t.rxchk = frameChecksum F ∧
      t.eof = frameByte F (F.length - 1) ∧ t.sum.toNat = byteSum (framePayload F) ∧
      t.calcchk = expectedChecksum F ∧
      (∀ i, i < frameLen F → t.payByte i = frameByte F (4 + i)) ∧ t.host = later)

/-- R79: RXFRAME assembles to START and one BYTE for each listed byte, in order; the assembler does not check the length:
a list too short for its length byte leaves the receiver in RECV, and in a list too long the surplus BYTEs are REJECTED
with the completed frame's state kept. -/
def Obligations.RxframeExpandsToStartAndBytes : Prop :=
  (∀ (r : Byte) (F : List Byte),
    Assembler.assembleLine (.rxframe r.toNat (F.map (fun b => b.toNat))) = .ok ((rxframe r F).map encode)) ∧
  (∀ (s : State) (r : Byte) (F : List Byte), s.fsm ≠ .recv → F.length < frameLen F + 7 →
    ∃ t, Runs (F.length + 1) { s with host := issues (rxframe r F) } t ∧ t.fsm = .recv) ∧
  (∀ (s : State) (r : Byte) (F extra : List Byte) (later : List HostInput), s.fsm ≠ .recv → isFrame F →
    ∃ t, Runs (F.length + 1) { s with host := issues (rxframe r (F ++ extra)) ++ later } t ∧ t.fsm = .done ∧
      ∀ k, 1 ≤ k → k ≤ extra.length →
        ∃ u, Runs (F.length + 1 + k) { s with host := issues (rxframe r (F ++ extra)) ++ later } u ∧
          u.cause = .rejected ∧ u = { t with resp := t.stat, cause := .rejected, host := u.host })
end

