-- ==== Sys2Proof/Laws/Decode.lean ====
section
/-! SUPPORT. The fields of a packed command word, and the words a decoding accepts. -/

namespace Sys2Proof

@[simp] theorem opField_packCommand (op : BitVec 4) (a : Byte) (v : Half) : opField (packCommand op a v) = op := by
  simp only [opField, packCommand]
  ext i hi
  simp only [BitVec.getElem_extractLsb', BitVec.getLsbD_append]
  rw [← BitVec.getLsbD_eq_getElem]
  simp [show ¬ 28 + i < 16 by omega, show ¬ 28 + i - 16 < 8 by omega, show ¬ 28 + i - 16 - 8 < 4 by omega,
    show 28 + i - 16 - 8 - 4 = i by omega]

@[simp] theorem rsvField_packCommand (op : BitVec 4) (a : Byte) (v : Half) : rsvField (packCommand op a v) = 0 := by
  simp only [rsvField, packCommand]
  ext i hi
  simp only [BitVec.getElem_extractLsb', BitVec.getLsbD_append]
  simp [show ¬ 24 + i < 16 by omega, show ¬ 24 + i - 16 < 8 by omega, show 24 + i - 16 - 8 < 4 by omega]

@[simp] theorem aField_packCommand (op : BitVec 4) (a : Byte) (v : Half) : aField (packCommand op a v) = a := by
  simp only [aField, packCommand]
  ext i hi
  simp only [BitVec.getElem_extractLsb', BitVec.getLsbD_append]
  rw [← BitVec.getLsbD_eq_getElem]
  simp [hi]

@[simp] theorem vField_packCommand (op : BitVec 4) (a : Byte) (v : Half) : vField (packCommand op a v) = v := by
  simp only [vField, packCommand]
  ext i hi
  simp only [BitVec.getElem_extractLsb', BitVec.getLsbD_append]
  rw [← BitVec.getLsbD_eq_getElem]
  simp [hi]

/-- A word is put together again from its four fields (R70). -/
theorem fields_of_word (w : Word) : opField w ++ rsvField w ++ aField w ++ vField w = w := by
  simp only [opField, rsvField, aField, vField]
  ext i hi
  rw [← BitVec.getLsbD_eq_getElem, ← BitVec.getLsbD_eq_getElem]
  simp only [BitVec.getLsbD_append, BitVec.getLsbD_extractLsb']
  rcases (by omega : i < 16 ∨ (16 ≤ i ∧ i < 24) ∨ (24 ≤ i ∧ i < 28) ∨ (28 ≤ i ∧ i < 32)) with h | h | h | h
  · simp [h]
  · simp [show ¬ i < 16 by omega, show i - 16 < 8 by omega, show 16 + (i - 16) = i by omega]
  · simp [show ¬ i < 16 by omega, show ¬ i - 16 < 8 by omega, show i - 16 - 8 < 4 by omega,
      show 24 + (i - 16 - 8) = i by omega]
  · simp [show ¬ i < 16 by omega, show ¬ i - 16 < 8 by omega, show ¬ i - 16 - 8 < 4 by omega,
      show i - 16 - 8 - 4 < 4 by omega, show 28 + (i - 16 - 8 - 4) = i by omega]

/-- A word with RSV = 0 is its packed fields. -/
theorem packCommand_fields (w : Word) (h : rsvField w = 0) : packCommand (opField w) (aField w) (vField w) = w := by
  have := fields_of_word w
  rw [h] at this
  exact this

end Sys2Proof
end

