-- ==== Sys2Proof/Laws/State.lean ====
section
/-! SUPPORT. One lemma per field per update of State: what each shared operation writes and what it keeps. -/

namespace Sys2Proof.Machine.State


@[simp] theorem respond_fsm (s : State) (c : Cause) (r : Word) : (s.respond c r).fsm = s.fsm := rfl
@[simp] theorem respond_verdict (s : State) (c : Cause) (r : Word) : (s.respond c r).verdict = s.verdict := rfl
@[simp] theorem respond_expreg (s : State) (c : Cause) (r : Word) : (s.respond c r).expreg = s.expreg := rfl
@[simp] theorem respond_sof (s : State) (c : Cause) (r : Word) : (s.respond c r).sof = s.sof := rfl
@[simp] theorem respond_rxreg (s : State) (c : Cause) (r : Word) : (s.respond c r).rxreg = s.rxreg := rfl
@[simp] theorem respond_errflag (s : State) (c : Cause) (r : Word) : (s.respond c r).errflag = s.errflag := rfl
@[simp] theorem respond_len (s : State) (c : Cause) (r : Word) : (s.respond c r).len = s.len := rfl
@[simp] theorem respond_cnt (s : State) (c : Cause) (r : Word) : (s.respond c r).cnt = s.cnt := rfl
@[simp] theorem respond_sum (s : State) (c : Cause) (r : Word) : (s.respond c r).sum = s.sum := rfl
@[simp] theorem respond_rxchk (s : State) (c : Cause) (r : Word) : (s.respond c r).rxchk = s.rxchk := rfl
@[simp] theorem respond_calcchk (s : State) (c : Cause) (r : Word) : (s.respond c r).calcchk = s.calcchk := rfl
@[simp] theorem respond_eof (s : State) (c : Cause) (r : Word) : (s.respond c r).eof = s.eof := rfl
@[simp] theorem respond_paybuf (s : State) (c : Cause) (r : Word) : (s.respond c r).paybuf = s.paybuf := rfl
@[simp] theorem respond_resp (s : State) (c : Cause) (r : Word) : (s.respond c r).resp = r := rfl
@[simp] theorem respond_cause (s : State) (c : Cause) (r : Word) : (s.respond c r).cause = c := rfl
@[simp] theorem respond_host (s : State) (c : Cause) (r : Word) : (s.respond c r).host = s.host := rfl
@[simp] theorem respond_epoch (s : State) (c : Cause) (r : Word) : (s.respond c r).epoch = s.epoch := rfl

@[simp] theorem accept_fsm (s : State) (r : Word) : (s.accept r).fsm = s.fsm := rfl
@[simp] theorem accept_verdict (s : State) (r : Word) : (s.accept r).verdict = s.verdict := rfl
@[simp] theorem accept_expreg (s : State) (r : Word) : (s.accept r).expreg = s.expreg := rfl
@[simp] theorem accept_sof (s : State) (r : Word) : (s.accept r).sof = s.sof := rfl
@[simp] theorem accept_rxreg (s : State) (r : Word) : (s.accept r).rxreg = s.rxreg := rfl
@[simp] theorem accept_errflag (s : State) (r : Word) : (s.accept r).errflag = s.errflag := rfl
@[simp] theorem accept_len (s : State) (r : Word) : (s.accept r).len = s.len := rfl
@[simp] theorem accept_cnt (s : State) (r : Word) : (s.accept r).cnt = s.cnt := rfl
@[simp] theorem accept_sum (s : State) (r : Word) : (s.accept r).sum = s.sum := rfl
@[simp] theorem accept_rxchk (s : State) (r : Word) : (s.accept r).rxchk = s.rxchk := rfl
@[simp] theorem accept_calcchk (s : State) (r : Word) : (s.accept r).calcchk = s.calcchk := rfl
@[simp] theorem accept_eof (s : State) (r : Word) : (s.accept r).eof = s.eof := rfl
@[simp] theorem accept_paybuf (s : State) (r : Word) : (s.accept r).paybuf = s.paybuf := rfl
@[simp] theorem accept_resp (s : State) (r : Word) : (s.accept r).resp = r := rfl
@[simp] theorem accept_cause (s : State) (r : Word) : (s.accept r).cause = .accepted := rfl
@[simp] theorem accept_host (s : State) (r : Word) : (s.accept r).host = s.host := rfl
@[simp] theorem accept_epoch (s : State) (r : Word) : (s.accept r).epoch = s.epoch := rfl

@[simp] theorem raiseIllegal_fsm (s : State) : (s.raiseIllegal).fsm = s.fsm := rfl
@[simp] theorem raiseIllegal_verdict (s : State) : (s.raiseIllegal).verdict = s.verdict := rfl
@[simp] theorem raiseIllegal_expreg (s : State) : (s.raiseIllegal).expreg = s.expreg := rfl
@[simp] theorem raiseIllegal_sof (s : State) : (s.raiseIllegal).sof = s.sof := rfl
@[simp] theorem raiseIllegal_rxreg (s : State) : (s.raiseIllegal).rxreg = s.rxreg := rfl
@[simp] theorem raiseIllegal_errflag (s : State) : (s.raiseIllegal).errflag = s.errflag := rfl
@[simp] theorem raiseIllegal_len (s : State) : (s.raiseIllegal).len = s.len := rfl
@[simp] theorem raiseIllegal_cnt (s : State) : (s.raiseIllegal).cnt = s.cnt := rfl
@[simp] theorem raiseIllegal_sum (s : State) : (s.raiseIllegal).sum = s.sum := rfl
@[simp] theorem raiseIllegal_rxchk (s : State) : (s.raiseIllegal).rxchk = s.rxchk := rfl
@[simp] theorem raiseIllegal_calcchk (s : State) : (s.raiseIllegal).calcchk = s.calcchk := rfl
@[simp] theorem raiseIllegal_eof (s : State) : (s.raiseIllegal).eof = s.eof := rfl
@[simp] theorem raiseIllegal_paybuf (s : State) : (s.raiseIllegal).paybuf = s.paybuf := rfl
@[simp] theorem raiseIllegal_resp (s : State) : (s.raiseIllegal).resp = 0 := rfl
@[simp] theorem raiseIllegal_cause (s : State) : (s.raiseIllegal).cause = .illegal := rfl
@[simp] theorem raiseIllegal_host (s : State) : (s.raiseIllegal).host = s.host := rfl
@[simp] theorem raiseIllegal_epoch (s : State) : (s.raiseIllegal).epoch = s.epoch := rfl

@[simp] theorem raiseRejected_fsm (s : State) : (s.raiseRejected).fsm = s.fsm := rfl
@[simp] theorem raiseRejected_verdict (s : State) : (s.raiseRejected).verdict = s.verdict := rfl
@[simp] theorem raiseRejected_expreg (s : State) : (s.raiseRejected).expreg = s.expreg := rfl
@[simp] theorem raiseRejected_sof (s : State) : (s.raiseRejected).sof = s.sof := rfl
@[simp] theorem raiseRejected_rxreg (s : State) : (s.raiseRejected).rxreg = s.rxreg := rfl
@[simp] theorem raiseRejected_errflag (s : State) : (s.raiseRejected).errflag = s.errflag := rfl
@[simp] theorem raiseRejected_len (s : State) : (s.raiseRejected).len = s.len := rfl
@[simp] theorem raiseRejected_cnt (s : State) : (s.raiseRejected).cnt = s.cnt := rfl
@[simp] theorem raiseRejected_sum (s : State) : (s.raiseRejected).sum = s.sum := rfl
@[simp] theorem raiseRejected_rxchk (s : State) : (s.raiseRejected).rxchk = s.rxchk := rfl
@[simp] theorem raiseRejected_calcchk (s : State) : (s.raiseRejected).calcchk = s.calcchk := rfl
@[simp] theorem raiseRejected_eof (s : State) : (s.raiseRejected).eof = s.eof := rfl
@[simp] theorem raiseRejected_paybuf (s : State) : (s.raiseRejected).paybuf = s.paybuf := rfl
@[simp] theorem raiseRejected_resp (s : State) : (s.raiseRejected).resp = s.stat := rfl
@[simp] theorem raiseRejected_cause (s : State) : (s.raiseRejected).cause = .rejected := rfl
@[simp] theorem raiseRejected_host (s : State) : (s.raiseRejected).host = s.host := rfl
@[simp] theorem raiseRejected_epoch (s : State) : (s.raiseRejected).epoch = s.epoch := rfl

@[simp] theorem writePay_fsm (s : State) (i : Nat) (b : Byte) : (s.writePay i b).fsm = s.fsm := rfl
@[simp] theorem writePay_verdict (s : State) (i : Nat) (b : Byte) : (s.writePay i b).verdict = s.verdict := rfl
@[simp] theorem writePay_expreg (s : State) (i : Nat) (b : Byte) : (s.writePay i b).expreg = s.expreg := rfl
@[simp] theorem writePay_sof (s : State) (i : Nat) (b : Byte) : (s.writePay i b).sof = s.sof := rfl
@[simp] theorem writePay_rxreg (s : State) (i : Nat) (b : Byte) : (s.writePay i b).rxreg = s.rxreg := rfl
@[simp] theorem writePay_errflag (s : State) (i : Nat) (b : Byte) : (s.writePay i b).errflag = s.errflag := rfl
@[simp] theorem writePay_len (s : State) (i : Nat) (b : Byte) : (s.writePay i b).len = s.len := rfl
@[simp] theorem writePay_cnt (s : State) (i : Nat) (b : Byte) : (s.writePay i b).cnt = s.cnt := rfl
@[simp] theorem writePay_sum (s : State) (i : Nat) (b : Byte) : (s.writePay i b).sum = s.sum := rfl
@[simp] theorem writePay_rxchk (s : State) (i : Nat) (b : Byte) : (s.writePay i b).rxchk = s.rxchk := rfl
@[simp] theorem writePay_calcchk (s : State) (i : Nat) (b : Byte) : (s.writePay i b).calcchk = s.calcchk := rfl
@[simp] theorem writePay_eof (s : State) (i : Nat) (b : Byte) : (s.writePay i b).eof = s.eof := rfl
@[simp] theorem writePay_paybuf (s : State) (i : Nat) (b : Byte) : (s.writePay i b).paybuf = Paybuf.write s.paybuf i b := rfl
@[simp] theorem writePay_resp (s : State) (i : Nat) (b : Byte) : (s.writePay i b).resp = s.resp := rfl
@[simp] theorem writePay_cause (s : State) (i : Nat) (b : Byte) : (s.writePay i b).cause = s.cause := rfl
@[simp] theorem writePay_host (s : State) (i : Nat) (b : Byte) : (s.writePay i b).host = s.host := rfl
@[simp] theorem writePay_epoch (s : State) (i : Nat) (b : Byte) : (s.writePay i b).epoch = s.epoch := rfl

@[simp] theorem arm_fsm (s : State) (a : Byte) : (s.arm a).fsm = .recv := rfl
@[simp] theorem arm_verdict (s : State) (a : Byte) : (s.arm a).verdict = .none := rfl
@[simp] theorem arm_expreg (s : State) (a : Byte) : (s.arm a).expreg = a := rfl
@[simp] theorem arm_sof (s : State) (a : Byte) : (s.arm a).sof = 0 := rfl
@[simp] theorem arm_rxreg (s : State) (a : Byte) : (s.arm a).rxreg = 0 := rfl
@[simp] theorem arm_errflag (s : State) (a : Byte) : (s.arm a).errflag = 0 := rfl
@[simp] theorem arm_len (s : State) (a : Byte) : (s.arm a).len = 0 := rfl
@[simp] theorem arm_cnt (s : State) (a : Byte) : (s.arm a).cnt = 0 := rfl
@[simp] theorem arm_sum (s : State) (a : Byte) : (s.arm a).sum = 0 := rfl
@[simp] theorem arm_rxchk (s : State) (a : Byte) : (s.arm a).rxchk = 0 := rfl
@[simp] theorem arm_calcchk (s : State) (a : Byte) : (s.arm a).calcchk = 0 := rfl
@[simp] theorem arm_eof (s : State) (a : Byte) : (s.arm a).eof = 0 := rfl
@[simp] theorem arm_paybuf (s : State) (a : Byte) : (s.arm a).paybuf = s.paybuf := rfl
@[simp] theorem arm_resp (s : State) (a : Byte) : (s.arm a).resp = s.resp := rfl
@[simp] theorem arm_cause (s : State) (a : Byte) : (s.arm a).cause = s.cause := rfl
@[simp] theorem arm_host (s : State) (a : Byte) : (s.arm a).host = s.host := rfl
@[simp] theorem arm_epoch (s : State) (a : Byte) : (s.arm a).epoch = s.epoch := rfl

@[simp] theorem abandon_fsm (s : State) : (s.abandon).fsm = .idle := rfl
@[simp] theorem abandon_verdict (s : State) : (s.abandon).verdict = .none := rfl
@[simp] theorem abandon_expreg (s : State) : (s.abandon).expreg = s.expreg := rfl
@[simp] theorem abandon_sof (s : State) : (s.abandon).sof = s.sof := rfl
@[simp] theorem abandon_rxreg (s : State) : (s.abandon).rxreg = s.rxreg := rfl
@[simp] theorem abandon_errflag (s : State) : (s.abandon).errflag = s.errflag := rfl
@[simp] theorem abandon_len (s : State) : (s.abandon).len = s.len := rfl
@[simp] theorem abandon_cnt (s : State) : (s.abandon).cnt = s.cnt := rfl
@[simp] theorem abandon_sum (s : State) : (s.abandon).sum = s.sum := rfl
@[simp] theorem abandon_rxchk (s : State) : (s.abandon).rxchk = s.rxchk := rfl
@[simp] theorem abandon_calcchk (s : State) : (s.abandon).calcchk = s.calcchk := rfl
@[simp] theorem abandon_eof (s : State) : (s.abandon).eof = s.eof := rfl
@[simp] theorem abandon_paybuf (s : State) : (s.abandon).paybuf = s.paybuf := rfl
@[simp] theorem abandon_resp (s : State) : (s.abandon).resp = s.resp := rfl
@[simp] theorem abandon_cause (s : State) : (s.abandon).cause = s.cause := rfl
@[simp] theorem abandon_host (s : State) : (s.abandon).host = s.host := rfl
@[simp] theorem abandon_epoch (s : State) : (s.abandon).epoch = s.epoch := rfl

@[simp] theorem finalize_fsm (s : State) : (s.finalize).fsm = .done := rfl
@[simp] theorem finalize_verdict (s : State) : (s.finalize).verdict = verdictOf s.errflag s.rxreg s.expreg s.rxchk (computedChecksum s.sum s.len) := rfl
@[simp] theorem finalize_expreg (s : State) : (s.finalize).expreg = s.expreg := rfl
@[simp] theorem finalize_sof (s : State) : (s.finalize).sof = s.sof := rfl
@[simp] theorem finalize_rxreg (s : State) : (s.finalize).rxreg = s.rxreg := rfl
@[simp] theorem finalize_errflag (s : State) : (s.finalize).errflag = s.errflag := rfl
@[simp] theorem finalize_len (s : State) : (s.finalize).len = s.len := rfl
@[simp] theorem finalize_cnt (s : State) : (s.finalize).cnt = s.cnt := rfl
@[simp] theorem finalize_sum (s : State) : (s.finalize).sum = s.sum := rfl
@[simp] theorem finalize_rxchk (s : State) : (s.finalize).rxchk = s.rxchk := rfl
@[simp] theorem finalize_calcchk (s : State) : (s.finalize).calcchk = computedChecksum s.sum s.len := rfl
@[simp] theorem finalize_eof (s : State) : (s.finalize).eof = s.eof := rfl
@[simp] theorem finalize_paybuf (s : State) : (s.finalize).paybuf = s.paybuf := rfl
@[simp] theorem finalize_resp (s : State) : (s.finalize).resp = s.resp := rfl
@[simp] theorem finalize_cause (s : State) : (s.finalize).cause = s.cause := rfl
@[simp] theorem finalize_host (s : State) : (s.finalize).host = s.host := rfl
@[simp] theorem finalize_epoch (s : State) : (s.finalize).epoch = s.epoch := rfl

@[simp] theorem assertReset_fsm (s : State) : (s.assertReset).fsm = .idle := rfl
@[simp] theorem assertReset_verdict (s : State) : (s.assertReset).verdict = .none := rfl
@[simp] theorem assertReset_expreg (s : State) : (s.assertReset).expreg = 0 := rfl
@[simp] theorem assertReset_sof (s : State) : (s.assertReset).sof = 0 := rfl
@[simp] theorem assertReset_rxreg (s : State) : (s.assertReset).rxreg = 0 := rfl
@[simp] theorem assertReset_errflag (s : State) : (s.assertReset).errflag = 0 := rfl
@[simp] theorem assertReset_len (s : State) : (s.assertReset).len = 0 := rfl
@[simp] theorem assertReset_cnt (s : State) : (s.assertReset).cnt = 0 := rfl
@[simp] theorem assertReset_sum (s : State) : (s.assertReset).sum = 0 := rfl
@[simp] theorem assertReset_rxchk (s : State) : (s.assertReset).rxchk = 0 := rfl
@[simp] theorem assertReset_calcchk (s : State) : (s.assertReset).calcchk = 0 := rfl
@[simp] theorem assertReset_eof (s : State) : (s.assertReset).eof = 0 := rfl
@[simp] theorem assertReset_paybuf (s : State) : (s.assertReset).paybuf = [] := rfl
@[simp] theorem assertReset_resp (s : State) : (s.assertReset).resp = 0 := rfl
@[simp] theorem assertReset_cause (s : State) : (s.assertReset).cause = .accepted := rfl
@[simp] theorem assertReset_host (s : State) : (s.assertReset).host = s.host := rfl
@[simp] theorem assertReset_epoch (s : State) : (s.assertReset).epoch = s.epoch + 1 := rfl

/-! The views of an updated state. -/

@[simp] theorem accept_stat (s : State) (r : Word) : (s.accept r).stat = s.stat := rfl
@[simp] theorem accept_pos (s : State) (r : Word) : (s.accept r).pos = s.pos := rfl
@[simp] theorem accept_chks (s : State) (r : Word) : (s.accept r).chks = s.chks := rfl
@[simp] theorem accept_acc (s : State) (r : Word) : (s.accept r).acc = s.acc := rfl
@[simp] theorem accept_readReg (s : State) (r : Word) (n : Byte) : (s.accept r).readReg n = s.readReg n := rfl
@[simp] theorem accept_payByte (s : State) (r : Word) (i : Nat) : (s.accept r).payByte i = s.payByte i := rfl
@[simp] theorem accept_payloadReadable (s : State) (r : Word) (i : Byte) :
    (s.accept r).payloadReadable i = s.payloadReadable i := rfl
@[simp] theorem accept_accept (s : State) (r q : Word) : (s.accept r).accept q = s.accept q := rfl
@[simp] theorem raiseRejected_stat (s : State) : s.raiseRejected.stat = s.stat := rfl
@[simp] theorem raiseRejected_payByte (s : State) (i : Nat) : s.raiseRejected.payByte i = s.payByte i := rfl
@[simp] theorem raiseIllegal_payByte (s : State) (i : Nat) : s.raiseIllegal.payByte i = s.payByte i := rfl
@[simp] theorem arm_payByte (s : State) (a : Byte) (i : Nat) : (s.arm a).payByte i = s.payByte i := rfl
@[simp] theorem abandon_payByte (s : State) (i : Nat) : s.abandon.payByte i = s.payByte i := rfl
@[simp] theorem finalize_payByte (s : State) (i : Nat) : s.finalize.payByte i = s.payByte i := rfl

end Sys2Proof.Machine.State
end

