-- ==== Sys2Proof/Laws/Paybuf.lean ====
section
/-! SUPPORT. The payload buffer: read after write, and the canonical form. -/

namespace Sys2Proof.Machine

namespace Paybuf

theorem read_write_same (m : List Host.Cell) (i : Nat) (b : Byte) : read (write m i b) i = some b := by
  induction m with
  | nil => simp [write, read]
  | cons c rest ih =>
    obtain ⟨j, c⟩ := c
    rcases Nat.lt_trichotomy i j with h | h | h
    · simp [write, h, read]
    · simp [write, h, read]
    · simp [write, show ¬ i < j by omega, show i ≠ j by omega, read, ih]

theorem read_write_other (m : List Host.Cell) (i k : Nat) (b : Byte) (hk : k ≠ i) :
    read (write m i b) k = read m k := by
  induction m with
  | nil => simp [write, read, hk]
  | cons c rest ih =>
    obtain ⟨j, c⟩ := c
    rcases Nat.lt_trichotomy i j with h | h | h
    · simp [write, h, read, hk]
    · subst h; simp [write, read, hk]
    · simp [write, show ¬ i < j by omega, show i ≠ j by omega, read, ih]

theorem rising_write (m : List Host.Cell) (lo i : Nat) (b : Byte) (hm : rising lo m = true) (hi : lo ≤ i) :
    rising lo (write m i b) = true := by
  induction m generalizing lo with
  | nil => simp [write, rising, hi]
  | cons c rest ih =>
    obtain ⟨j, c⟩ := c
    simp only [rising, Bool.and_eq_true, decide_eq_true_eq] at hm
    rcases Nat.lt_trichotomy i j with h | h | h
    · simp [write, h, rising, hi, hm.2]
    · subst h; simp [write, rising, hi, hm.2]
    · have := ih (j + 1) hm.2 (by omega)
      simp [write, show ¬ i < j by omega, show i ≠ j by omega, rising, hm.1, this]

theorem all_write (m : List Host.Cell) (p : Nat → Bool) (i : Nat) (b : Byte)
    (hm : m.all (fun c => p c.1) = true) (hi : p i = true) : (write m i b).all (fun c => p c.1) = true := by
  induction m with
  | nil => simp [write, hi]
  | cons c rest ih =>
    obtain ⟨j, c⟩ := c
    simp only [List.all_cons, Bool.and_eq_true] at hm
    have := ih hm.2
    unfold write
    split
    · simpa [hi] using hm
    · split
      · simpa [hi] using hm.2
      · simpa [hm.1] using this

/-- MemWrite keeps the canonical form (R58). -/
theorem wf_write (m : List Host.Cell) (i : Nat) (b : Byte) (hm : wf m = true) (hi : i < Config.payBufSize) :
    wf (write m i b) = true := by
  simp only [wf, Bool.and_eq_true] at hm ⊢
  exact ⟨rising_write m 0 i b hm.1 (Nat.zero_le i),
    all_write m (fun j => decide (j < Config.payBufSize)) i b hm.2 (by simpa using hi)⟩

end Paybuf

/-- MemWrite, through MemRead. -/
@[simp] theorem State.writePay_payByte (s : State) (i j : Nat) (b : Byte) :
    (s.writePay i b).payByte j = if j = i then b else s.payByte j := by
  by_cases h : j = i
  · subst h; simp [State.payByte, Paybuf.read_write_same]
  · simp [State.payByte, Paybuf.read_write_other _ _ _ _ h, h]

end Sys2Proof.Machine
end

