-- ==== Sys2Proof/Laws/Exec.lean ====
section
/-! SUPPORT. What the shared operations, `exec` and `step` can do, said once. -/

namespace Sys2Proof.Machine

/-! The readable registers of a state whose response alone changed. -/

@[simp] theorem State.respond_self (s : State) : s.respond s.cause s.resp = s := rfl

theorem State.raiseIllegal_eq (s : State) : s.raiseIllegal = s.respond .illegal 0 := rfl

theorem State.raiseRejected_eq (s : State) : s.raiseRejected = s.respond .rejected s.stat := rfl

theorem State.readReg_none {s : State} {n : Byte} : s.readReg n = none ↔ 3 < n.toNat := by
  unfold State.readReg
  split <;> simp_all
  rename_i h0 h1 h2 h3
  omega

/-! CAPTURE (R112): what it never writes. -/

@[simp] theorem State.capture_fsm (s : State) (k : Nat) (b : Byte) : (s.capture k b).fsm = s.fsm := by
  unfold State.capture; repeat' split
  all_goals rfl

@[simp] theorem State.capture_verdict (s : State) (k : Nat) (b : Byte) : (s.capture k b).verdict = s.verdict := by
  unfold State.capture; repeat' split
  all_goals rfl

@[simp] theorem State.capture_expreg (s : State) (k : Nat) (b : Byte) : (s.capture k b).expreg = s.expreg := by
  unfold State.capture; repeat' split
  all_goals rfl

@[simp] theorem State.capture_cnt (s : State) (k : Nat) (b : Byte) : (s.capture k b).cnt = s.cnt := by
  unfold State.capture; repeat' split
  all_goals rfl

@[simp] theorem State.capture_calcchk (s : State) (k : Nat) (b : Byte) : (s.capture k b).calcchk = s.calcchk := by
  unfold State.capture; repeat' split
  all_goals rfl

@[simp] theorem State.capture_host (s : State) (k : Nat) (b : Byte) : (s.capture k b).host = s.host := by
  unfold State.capture; repeat' split
  all_goals rfl

@[simp] theorem State.capture_epoch (s : State) (k : Nat) (b : Byte) : (s.capture k b).epoch = s.epoch := by
  unfold State.capture; repeat' split
  all_goals rfl

theorem State.capture_len (s : State) (k : Nat) (b : Byte) :
    (s.capture k b).len = if k = 3 then b else s.len := by
  unfold State.capture
  repeat' split
  all_goals first | rfl | omega

/-- LEN after the capture decides the last byte as LEN before it does: the length byte is never the last (R111). -/
theorem State.capture_last (s : State) (k : Nat) (b : Byte) :
    k = 6 + (s.capture k b).len.toNat ↔ k = 6 + s.len.toNat := by
  rw [State.capture_len]
  split
  · subst k; omega
  · rfl

/-- An accepted BYTE before the last of its frame (R111). -/
theorem State.deliver_more (s : State) (b : Byte) (h : s.cnt.toNat ≠ 6 + s.len.toNat) :
    s.deliver b = { s.capture s.cnt.toNat b with cnt := s.cnt + 1 } := by
  simp only [State.deliver]
  rw [if_neg]
  rwa [State.capture_last]

/-- The BYTE that delivers the stop byte (R113). -/
theorem State.deliver_last (s : State) (b : Byte) (h : s.cnt.toNat = 6 + s.len.toNat) :
    s.deliver b = ({ s with eof := b, cnt := s.cnt + 1 } : State).finalize := by
  have e : s.capture s.cnt.toNat b = { s with eof := b } := by
    unfold State.capture
    repeat rw [if_neg (by omega)]
  simp only [State.deliver, e]
  rw [if_pos h]

/-! The meanings, with their state check decided. -/

theorem exec_start_armed (s : State) (a : Byte) (h : s.fsm ≠ .recv) :
    exec (.start a) s = .next ((s.arm a).accept (s.arm a).stat) := by simp [exec, execStart, h]

theorem exec_start_rejected (s : State) (a : Byte) (h : s.fsm = .recv) :
    exec (.start a) s = .next s.raiseRejected := by simp [exec, execStart, h]

theorem exec_byte_delivered (s : State) (b : Byte) (h : s.fsm = .recv) :
    exec (.byte b) s = .next ((s.deliver b).accept (s.deliver b).stat) := by simp [exec, execByte, h]

theorem exec_byte_rejected (s : State) (b : Byte) (h : s.fsm ≠ .recv) :
    exec (.byte b) s = .next s.raiseRejected := by simp [exec, execByte, h]

/-- Every command answers a next state, and it does one of four things: it only responds; it arms the receiver; it
delivers a byte; it abandons the frame. The cause of a bare response says which check failed. -/
theorem exec_cases (i : Instr) (s : State) :
    (∃ c r, exec i s = .next (s.respond c r) ∧ i ≠ .abort ∧
      (c = .accepted → (∀ a, i ≠ .start a) ∧ ∀ b, i ≠ .byte b) ∧
      (c = .illegal → i.wellFormed = false) ∧
      (c = .rejected → (s.fsm = .recv ∧ ∃ a, i = .start a) ∨ (s.fsm ≠ .recv ∧ ∃ b, i = .byte b))) ∨
    (∃ a, i = .start a ∧ s.fsm ≠ .recv ∧ exec i s = .next ((s.arm a).accept (s.arm a).stat)) ∨
    (∃ b, i = .byte b ∧ s.fsm = .recv ∧ exec i s = .next ((s.deliver b).accept (s.deliver b).stat)) ∨
    (i = .abort ∧ exec i s = .next (s.abandon.accept s.abandon.stat)) := by
  cases i with
  | nop => exact .inl ⟨.accepted, s.stat, rfl, by simp, by simp, by simp, by simp⟩
  | start a =>
    by_cases h : s.fsm = .recv
    · exact .inl ⟨.rejected, s.stat, exec_start_rejected s a h, by simp, by simp, by simp, by simp [h]⟩
    · exact .inr (.inl ⟨a, rfl, h, exec_start_armed s a h⟩)
  | byte b =>
    by_cases h : s.fsm = .recv
    · exact .inr (.inr (.inl ⟨b, rfl, h, exec_byte_delivered s b h⟩))
    · exact .inl ⟨.rejected, s.stat, exec_byte_rejected s b h, by simp, by simp, by simp, by simp [h]⟩
  | abort => exact .inr (.inr (.inr ⟨rfl, rfl⟩))
  | rdpay a =>
    left
    by_cases h : s.payloadReadable a
    · exact ⟨.accepted, _, by simp only [exec, execRdpay, h, if_true]; rfl, by simp, by simp, by simp, by simp⟩
    · exact ⟨.accepted, _, by simp only [exec, execRdpay, h]; rfl, by simp, by simp, by simp, by simp⟩
  | rdreg a =>
    left
    cases h : s.readReg a with
    | some r => exact ⟨.accepted, r, by simp only [exec, execRdreg, h]; rfl, by simp, by simp, by simp, by simp⟩
    | none =>
      refine ⟨.illegal, 0, by simp only [exec, execRdreg, h]; rfl, by simp, by simp, ?_, by simp⟩
      have := State.readReg_none.1 h
      simp [Instr.wellFormed]; omega
  | ddate v => exact .inl ⟨.accepted, _, rfl, by simp, by simp, by simp, by simp⟩
  | dprot v => exact .inl ⟨.accepted, _, rfl, by simp, by simp, by simp, by simp⟩
  | dbal a v => exact .inl ⟨.accepted, _, rfl, by simp, by simp, by simp, by simp⟩
  | dcd v => exact .inl ⟨.accepted, _, rfl, by simp, by simp, by simp, by simp⟩

/-- The decoder never gives an ill-formed command (R73). -/
theorem wellFormed_of_decode {w : Word} {i : Instr} (h : decode w = .command i) : i.wellFormed = true := by
  unfold decode at h
  split at h
  · split at h
    all_goals first
      | (cases h; rfl)
      | (split at h
         · cases h
         · cases h; simp [Instr.wellFormed]; omega)
      | cases h
  · cases h

/-! Steps. -/

theorem step_nil {s : State} (h : s.host = []) : step s = .next s := by simp [step, h, waitForHost]

theorem step_command {s : State} {w : Word} {rest : List HostInput} (h : s.host = .command w :: rest) :
    step s = runWord w { s with host := rest } := by simp [step, h, runInput]

theorem step_reset {s : State} {rest : List HostInput} (h : s.host = .reset :: rest) :
    step s = .next ({ s with host := rest } : State).assertReset := by simp [step, h, runInput]

theorem runWord_command {w : Word} {i : Instr} (s : State) (h : decode w = .command i) :
    runWord w s = exec i s := by simp [runWord, h]

theorem runWord_illegal {w : Word} (s : State) (h : ∀ i, decode w ≠ .command i) :
    runWord w s = .next s.raiseIllegal := by
  unfold runWord
  cases hd : decode w with
  | command i => exact absurd hd (h i)
  | illegal r => rfl

/-- Every step answers a next state, and the move it takes is one of these: none, reset, a word that only responds,
an accepted START, an accepted BYTE, an ABORT. -/
theorem step_cases (s : State) :
    (s.host = [] ∧ step s = .next s) ∨
    ∃ m rest, s.host = m :: rest ∧
      ((m = .reset ∧ step s = .next ({ s with host := rest } : State).assertReset) ∨
       ∃ w, m = .command w ∧
        ((∃ c r, step s = .next (({ s with host := rest } : State).respond c r) ∧ decode w ≠ .command .abort ∧
            ((∃ a, decode w = .command (.start a)) → s.fsm = .recv) ∧
            ((∃ b, decode w = .command (.byte b)) → s.fsm ≠ .recv)) ∨
         (∃ a, decode w = .command (.start a) ∧ s.fsm ≠ .recv ∧
            step s = .next ((({ s with host := rest } : State).arm a).accept
              (({ s with host := rest } : State).arm a).stat)) ∨
         (∃ b, decode w = .command (.byte b) ∧ s.fsm = .recv ∧
            step s = .next ((({ s with host := rest } : State).deliver b).accept
              (({ s with host := rest } : State).deliver b).stat)) ∨
         (decode w = .command .abort ∧
            step s = .next (({ s with host := rest } : State).abandon.accept
              ({ s with host := rest } : State).abandon.stat)))) := by
  cases hh : s.host with
  | nil => exact .inl ⟨rfl, step_nil hh⟩
  | cons m rest =>
    refine .inr ⟨m, rest, rfl, ?_⟩
    cases m with
    | reset => exact .inl ⟨rfl, step_reset hh⟩
    | command w =>
      refine .inr ⟨w, rfl, ?_⟩
      rw [step_command hh]
      cases hd : decode w with
      | illegal r =>
        exact .inl ⟨.illegal, 0, by rw [runWord_illegal _ (by simp [hd])]; rfl, by simp, by simp, by simp⟩
      | command i =>
        rw [runWord_command _ hd]
        obtain ⟨c, r, he, hab, ha, hi, hr⟩ | ⟨a, rfl, hs, he⟩ | ⟨b, rfl, hs, he⟩ | ⟨rfl, he⟩ :=
          exec_cases i { s with host := rest }
        · refine .inl ⟨c, r, he, by simpa using hab, ?_, ?_⟩
          · rintro ⟨a, ⟨⟩⟩
            cases c with
            | accepted => exact absurd rfl ((ha rfl).1 a)
            | illegal => simp [Instr.wellFormed] at hi
            | rejected => simpa using hr rfl
          · rintro ⟨b, ⟨⟩⟩
            cases c with
            | accepted => exact absurd rfl ((ha rfl).2 b)
            | illegal => simp [Instr.wellFormed] at hi
            | rejected => simpa using hr rfl
        · exact .inr (.inl ⟨a, rfl, hs, he⟩)
        · exact .inr (.inr (.inl ⟨b, rfl, hs, he⟩))
        · exact .inr (.inr (.inr ⟨rfl, he⟩))

/-! Runs. -/

theorem runs_zero (s : State) : Runs 0 s s := rfl

theorem runs_succ {k : Nat} {s t u : State} (h : step s = .next t) (h' : Runs k t u) : Runs (k + 1) s u := by
  unfold Runs at h' ⊢
  simp only [Host.Core.run]
  rw [show Sys2Proof.core.step s = Host.Outcome.next t from h]
  exact h'

/-- A step that answers a next state, taken off the front of a run. -/
theorem runs_head {k : Nat} {s u : State} (h : Runs (k + 1) s u) : ∃ t, step s = .next t ∧ Runs k t u := by
  obtain ⟨t, ht⟩ : ∃ t, step s = .next t := by
    obtain ⟨-, h⟩ | ⟨m, rest, -, ⟨-, h⟩ | ⟨w, -, ⟨c, r, h, -⟩ | ⟨a, -, -, h⟩ | ⟨b, -, -, h⟩ | ⟨-, h⟩⟩⟩ := step_cases s <;>
      exact ⟨_, h⟩
  refine ⟨t, ht, ?_⟩
  unfold Runs at h ⊢
  simp only [Host.Core.run] at h
  rw [show Sys2Proof.core.step s = Host.Outcome.next t from ht] at h
  exact h

theorem runs_add {j k : Nat} {s t u : State} (h : Runs j s t) (h' : Runs k t u) : Runs (j + k) s u := by
  induction j generalizing s with
  | zero => simp only [Runs, Host.Core.run] at h; cases h; simpa using h'
  | succ j ih =>
    obtain ⟨m, hm, hr⟩ := runs_head h
    rw [show j + 1 + k = (j + k) + 1 by omega]
    exact runs_succ hm (ih hr)

end Sys2Proof.Machine
end

