-- ==== Sys2Proof/Laws/PerInstr.lean ====
section
/-! SUPPORT. The family EncodedFields: the four fields of each command's word (R70, R72, R78). -/

namespace Sys2Proof.Laws.EncodedFields

/-- The encoder puts the command number in OP, 0 in RSV and the operands in A and V. -/
def Statement (i : Instr) : Prop :=
  opField (encode i) = i.opcode ∧ rsvField (encode i) = 0 ∧ aField (encode i) = i.aOperand ∧
    vField (encode i) = i.vOperand

theorem nop : Statement .nop := by simp [Statement, encode]
theorem start (a : Byte) : Statement (.start a) := by simp [Statement, encode]
theorem byte (a : Byte) : Statement (.byte a) := by simp [Statement, encode]
theorem abort : Statement .abort := by simp [Statement, encode]
theorem rdpay (a : Byte) : Statement (.rdpay a) := by simp [Statement, encode]
theorem rdreg (a : Byte) : Statement (.rdreg a) := by simp [Statement, encode]
theorem ddate (v : Half) : Statement (.ddate v) := by simp [Statement, encode]
theorem dprot (v : Half) : Statement (.dprot v) := by simp [Statement, encode]
theorem dbal (a : Byte) (v : Half) : Statement (.dbal a v) := by simp [Statement, encode]
theorem dcd (v : Half) : Statement (.dcd v) := by simp [Statement, encode]

end Sys2Proof.Laws.EncodedFields
end

