-- ==== Sys2Proof/Laws/Reference.lean ====
section
/-! SUPPORT. Sums and checksums (R32, R101, R113). -/

namespace Sys2Proof.Machine

namespace Reference

@[simp] theorem byteSum_append (S T : List Byte) : byteSum (S ++ T) = byteSum S + byteSum T := by
  induction S with
  | nil => simp [byteSum]
  | cons b rest ih => simp [byteSum, ih]; omega

/-- "It never exceeds 255 x 255" for 255 bytes (R32). -/
theorem byteSum_le (S : List Byte) : byteSum S ≤ 255 * S.length := by
  induction S with
  | nil => simp [byteSum]
  | cons b rest ih => simp only [byteSum, List.length_cons]; have := b.isLt; omega

theorem byteSum_perm {S T : List Byte} (h : S.Perm T) : byteSum S = byteSum T := by
  induction h with
  | nil => rfl
  | cons b _ ih => simp [byteSum, ih]
  | swap b c S => simp [byteSum]; omega
  | trans _ _ ih1 ih2 => exact ih1.trans ih2

/-- CHECKSUM as the 16-bit negation of sum(S) + L (R101, "Equivalently"). -/
theorem checksum_toNat (L : Nat) (S : List Byte) :
    (checksum L S).toNat = (65536 - (byteSum S + L) % 65536) % 65536 := by
  have h : checksum L S = ~~~ (BitVec.ofInt 16 ((byteSum S : Int) + (L : Int) - 1)) := by
    simp only [checksum]
    rw [← BitVec.xor_allOnes]; rfl
  rw [h, BitVec.toNat_not, BitVec.toNat_ofInt]
  omega

/-- Replacing one byte of a payload moves its sum by the difference of the bytes (R106). -/
theorem byteSum_replace (S : List Byte) (i : Nat) (b : Byte) (h : i < S.length) :
    byteSum (S.set i b) + (S[i]).toNat = byteSum S + b.toNat := by
  induction S generalizing i with
  | nil => simp at h
  | cons a S ih =>
    cases i with
    | zero => simp [byteSum]; omega
    | succ i => simp at h; have := ih i h; simp [byteSum]; omega

/-- The sum of one more payload byte. -/
theorem byteSum_take_succ (S : List Byte) (n : Nat) (h : n < S.length) :
    byteSum (S.take (n + 1)) = byteSum (S.take n) + (S.getD n 0).toNat := by
  rw [List.take_add_one, byteSum_append]
  simp [List.getElem?_eq_getElem h, byteSum, List.getD]

/-- Replacing byte i of a frame leaves its other bytes. -/
theorem frameByte_set_ne (F : List Byte) (i j : Nat) (b : Byte) (h : i ≠ j) :
    frameByte (F.set i b) j = frameByte F j := by
  simp [frameByte, List.getD, h]

/-- Replacing a byte outside a stretch of a frame leaves the stretch. -/
theorem stretch_set_outside (F : List Byte) (i : Nat) (b : Byte) (n m : Nat) (h : i < n ∨ n + m ≤ i) :
    ((F.set i b).drop n).take m = (F.drop n).take m := by
  apply List.ext_getElem?
  intro j
  simp only [List.getElem?_take, List.getElem?_drop]
  split
  · rw [List.getElem?_set_ne (by omega)]
  · rfl

theorem getElem_eq_frameByte {F : List Byte} {k : Nat} (h : k < F.length) : F[k] = frameByte F k := by
  simp [frameByte, List.getD, List.getElem?_eq_getElem h]

end Reference

/-- FINALIZE's checksum over the exact integers (R113, R101). -/
theorem computedChecksum_eq_ofInt (sum : Half) (len : Byte) :
    computedChecksum sum len = BitVec.ofInt 16 ((sum.toNat : Int) + (len.toNat : Int) - 1) ^^^ 0xFFFF := by
  unfold computedChecksum
  congr 1
  apply BitVec.eq_of_toNat_eq
  have := sum.isLt
  have := len.isLt
  simp only [BitVec.toNat_sub, BitVec.toNat_add, BitVec.toNat_setWidth, BitVec.toNat_ofInt,
    show (1 : Half).toNat = 1 from rfl]
  omega

/-- FINALIZE's checksum is CHECKSUM(LEN, payload) when SUM is the exact payload sum (R113, R34). -/
theorem computedChecksum_eq_checksum (sum : Half) (len : Byte) (S : List Byte)
    (h : sum.toNat = Reference.byteSum S) : computedChecksum sum len = Reference.checksum len.toNat S := by
  apply BitVec.eq_of_toNat_eq
  rw [Reference.checksum_toNat, ← h]
  have e : computedChecksum sum len = ~~~ (sum + len.setWidth 16 - 1) := by
    simp only [computedChecksum]
    rw [← BitVec.xor_allOnes]; rfl
  rw [e]
  have := sum.isLt
  have := len.isLt
  simp only [BitVec.toNat_not, BitVec.toNat_sub, BitVec.toNat_add, BitVec.toNat_setWidth,
    show (1 : Half).toNat = 1 from rfl]
  omega

end Sys2Proof.Machine
end

