-- ==== Sys2Proof/Laws/Receiver.lean ====
section
/-! SUPPORT. What CAPTURE and an accepted BYTE do to each register and to PAYBUF (R111 to R113), and that each shared
operation keeps the receiver's invariant. -/

namespace Sys2Proof.Machine

open Reference

/-- The two halves of a concatenation of bytes. -/
theorem halves_of_append (a b : Byte) : (a ++ b).extractLsb' 8 8 = a ∧ (a ++ b).extractLsb' 0 8 = b := by
  constructor
  · ext i hi
    simp only [BitVec.getElem_extractLsb', BitVec.getLsbD_append]
    rw [← BitVec.getLsbD_eq_getElem]
    simp [show ¬ 8 + i < 8 by omega]
  · ext i hi
    simp only [BitVec.getElem_extractLsb', BitVec.getLsbD_append]
    rw [← BitVec.getLsbD_eq_getElem]
    simp [hi]

/-- A 16-bit word is its two bytes, high byte first (R33, R52). -/
theorem append_of_halves (x : Half) (a b : Byte) (h1 : x.extractLsb' 8 8 = a) (h2 : x.extractLsb' 0 8 = b) :
    x = a ++ b := by
  subst h1 h2
  ext i hi
  rw [← BitVec.getLsbD_eq_getElem, ← BitVec.getLsbD_eq_getElem]
  simp only [BitVec.getLsbD_append, BitVec.getLsbD_extractLsb']
  split
  · rename_i h; simp [h]
  · rw [show 8 + (i - 8) = i by omega]; simp [show i - 8 < 8 by omega]

/-- FINALIZE never leaves VERDICT at NONE (R24). -/
theorem verdictOf_ne_none (a b c : Byte) (d e : Half) : verdictOf a b c d e ≠ .none := by
  unfold verdictOf; repeat' split
  all_goals simp

/-! CAPTURE, register by register (R112). -/

theorem State.capture_sof (s : State) (k : Nat) (b : Byte) :
    (s.capture k b).sof = if k = 0 then b else s.sof := by
  unfold State.capture
  repeat' split
  all_goals rfl

theorem State.capture_rxreg (s : State) (k : Nat) (b : Byte) :
    (s.capture k b).rxreg = if k = 1 then b else s.rxreg := by
  unfold State.capture
  repeat' split
  all_goals first | rfl | omega

theorem State.capture_errflag (s : State) (k : Nat) (b : Byte) :
    (s.capture k b).errflag = if k = 2 then b else s.errflag := by
  unfold State.capture
  repeat' split
  all_goals first | rfl | omega

theorem State.capture_sum (s : State) (k : Nat) (b : Byte) :
    (s.capture k b).sum =
      if k = 3 then 0 else if 4 ≤ k ∧ k < 4 + s.len.toNat then s.sum + b.setWidth 16 else s.sum := by
  unfold State.capture
  repeat' split
  all_goals first | rfl | omega

theorem State.capture_rxchk (s : State) (k : Nat) (b : Byte) :
    (s.capture k b).rxchk =
      if 4 ≤ k ∧ k = 4 + s.len.toNat then b ++ s.rxchk.extractLsb' 0 8
      else if 4 ≤ k ∧ k = 5 + s.len.toNat then s.rxchk.extractLsb' 8 8 ++ b else s.rxchk := by
  unfold State.capture
  repeat' split
  all_goals first | rfl | omega

theorem State.capture_eof (s : State) (k : Nat) (b : Byte) :
    (s.capture k b).eof = if 4 ≤ k ∧ 6 + s.len.toNat ≤ k then b else s.eof := by
  unfold State.capture
  repeat' split
  all_goals first | rfl | omega

theorem State.capture_paybuf (s : State) (k : Nat) (b : Byte) :
    (s.capture k b).paybuf =
      if 4 ≤ k ∧ k < 4 + s.len.toNat then Paybuf.write s.paybuf (k - 4) b else s.paybuf := by
  unfold State.capture
  repeat' split
  all_goals first | rfl | omega

theorem State.capture_payByte (s : State) (k : Nat) (b : Byte) (i : Nat) :
    (s.capture k b).payByte i =
      if 4 ≤ k ∧ k < 4 + s.len.toNat ∧ i = k - 4 then b else s.payByte i := by
  by_cases h : 4 ≤ k ∧ k < 4 + s.len.toNat
  · have e : (s.capture k b).payByte i = (s.writePay (k - 4) b).payByte i := by
      simp only [State.payByte, State.capture_paybuf, State.capture_epoch, if_pos h, State.writePay_paybuf,
        State.writePay_epoch]
    rw [e]
    simp [h.1, h.2]
  · have e : (s.capture k b).payByte i = s.payByte i := by
      simp only [State.payByte, State.capture_paybuf, State.capture_epoch, if_neg h]
    rw [e, if_neg (show ¬ (4 ≤ k ∧ k < 4 + s.len.toNat ∧ i = k - 4) from fun hh => h ⟨hh.1, hh.2.1⟩)]

/-! An accepted BYTE (R111). -/

theorem State.deliver_cnt (s : State) (b : Byte) : (s.deliver b).cnt = s.cnt + 1 := by
  by_cases hc : s.cnt.toNat = 6 + s.len.toNat
  · rw [State.deliver_last _ b hc]; rfl
  · rw [State.deliver_more _ b hc]

theorem State.deliver_expreg (s : State) (b : Byte) : (s.deliver b).expreg = s.expreg := by
  by_cases hc : s.cnt.toNat = 6 + s.len.toNat
  · rw [State.deliver_last _ b hc]; rfl
  · rw [State.deliver_more _ b hc]; simp

theorem State.deliver_host (s : State) (b : Byte) : (s.deliver b).host = s.host := by
  by_cases hc : s.cnt.toNat = 6 + s.len.toNat
  · rw [State.deliver_last _ b hc]; rfl
  · rw [State.deliver_more _ b hc]; simp

theorem State.deliver_fsm (s : State) (b : Byte) :
    (s.deliver b).fsm = if s.cnt.toNat = 6 + s.len.toNat then .done else s.fsm := by
  by_cases hc : s.cnt.toNat = 6 + s.len.toNat
  · rw [State.deliver_last _ b hc, if_pos hc]; rfl
  · rw [State.deliver_more _ b hc, if_neg hc]; simp

theorem State.deliver_len (s : State) (b : Byte) :
    (s.deliver b).len = if s.cnt.toNat = 3 then b else s.len := by
  by_cases hc : s.cnt.toNat = 6 + s.len.toNat
  · rw [State.deliver_last _ b hc, if_neg (by omega)]; rfl
  · rw [State.deliver_more _ b hc]; exact State.capture_len s _ b

/-- The one PAYBUF byte an accepted BYTE writes, and that it writes no other (R50, R112). -/
theorem State.deliver_payByte (s : State) (b : Byte) (i : Nat) :
    (s.deliver b).payByte i =
      if 4 ≤ s.cnt.toNat ∧ s.cnt.toNat < 4 + s.len.toNat ∧ i = s.cnt.toNat - 4 then b else s.payByte i := by
  by_cases hc : s.cnt.toNat = 6 + s.len.toNat
  · rw [State.deliver_last _ b hc, if_neg (by omega)]; rfl
  · rw [State.deliver_more _ b hc]; exact State.capture_payByte s _ b i

/-- An accepted BYTE reads no PAYBUF byte and no `epoch`. -/
theorem State.deliver_with_paybuf (s : State) (p : List Host.Cell) (e : Nat) (b : Byte) :
    ({ s with paybuf := p, epoch := e } : State).deliver b =
      { s.deliver b with
        paybuf := (({ s with paybuf := p, epoch := e } : State).deliver b).paybuf, epoch := e } := by
  have cap : ∀ k, ({ s with paybuf := p, epoch := e } : State).capture k b =
      { s.capture k b with
        paybuf := (({ s with paybuf := p, epoch := e } : State).capture k b).paybuf, epoch := e } := by
    intro k; unfold State.capture; repeat' split
    all_goals rfl
  by_cases hc : s.cnt.toNat = 6 + s.len.toNat
  · rw [State.deliver_last s b hc, State.deliver_last { s with paybuf := p, epoch := e } b hc]; rfl
  · rw [State.deliver_more s b hc, State.deliver_more { s with paybuf := p, epoch := e } b hc]
    have := cap s.cnt.toNat
    simp only at this ⊢
    rw [this]

/-! PAYBUF as a list of its first bytes. -/

theorem State.payBytes_congr {s t : State} {n : Nat} (h : ∀ i, i < n → s.payByte i = t.payByte i) :
    s.payBytes n = t.payBytes n :=
  List.map_congr_left fun i hi => h i (List.mem_range.1 hi)

theorem State.payBytes_succ (s : State) (n : Nat) : s.payBytes (n + 1) = s.payBytes n ++ [s.payByte n] := by
  simp [State.payBytes, List.range_succ]

@[simp] theorem State.payBytes_length (s : State) (n : Nat) : (s.payBytes n).length = n := by simp [State.payBytes]

/-! The receiver's invariant, operation by operation. -/

theorem State.Inv.respond {s : State} (h : s.Inv) (c : Cause) (r : Word) : (s.respond c r).Inv :=
  ⟨h.pay_wf, h.pay_written, h.cnt_le, h.len_zero, h.sum_exact, h.sof_zero, h.rxreg_zero, h.errflag_zero,
    h.rxchk_zero, h.rxchk_low_zero, h.eof_zero, h.calcchk_zero, h.calcchk_full, h.idle, h.recv, h.done⟩

theorem State.Inv.withHost {s : State} (h : s.Inv) (l : List HostInput) : ({ s with host := l } : State).Inv :=
  ⟨h.pay_wf, h.pay_written, h.cnt_le, h.len_zero, h.sum_exact, h.sof_zero, h.rxreg_zero, h.errflag_zero,
    h.rxchk_zero, h.rxchk_low_zero, h.eof_zero, h.calcchk_zero, h.calcchk_full, h.idle, h.recv, h.done⟩

theorem State.Inv.arm {s : State} (h : s.Inv) (a : Byte) : (s.arm a).Inv := by
  constructor <;>
    simp [State.received, State.payBytes, byteSum, Config.overheadBytes, Config.headerBytes, h.pay_wf]

theorem State.Inv.abandon {s : State} (h : s.Inv) : s.abandon.Inv :=
  ⟨h.pay_wf, h.pay_written, h.cnt_le, h.len_zero, h.sum_exact, h.sof_zero, h.rxreg_zero, h.errflag_zero,
    h.rxchk_zero, h.rxchk_low_zero, h.eof_zero, h.calcchk_zero, h.calcchk_full, fun _ => rfl,
    fun hh => (by cases hh), fun hh => (by cases hh)⟩

theorem State.inv_assertReset (s : State) : s.assertReset.Inv := by
  constructor <;>
    simp [State.received, State.payBytes, byteSum, Config.overheadBytes, Config.headerBytes, Paybuf.wf,
      Paybuf.rising]

/-- CNT counts without wrapping in its 9 bits (R29). -/
theorem State.Inv.cnt_succ {s : State} (h : s.Inv) : (s.cnt + 1).toNat = s.cnt.toNat + 1 := by
  have e : (s.cnt + 1).toNat = (s.cnt.toNat + 1) % 512 := by rw [BitVec.toNat_add]; rfl
  have h1 := h.cnt_le
  have := s.len.isLt
  simp only [Config.overheadBytes] at h1
  omega

/-- SUM takes a payload byte without wrapping in its 16 bits (R32). -/
theorem State.Inv.sum_no_wrap {s : State} (h : s.Inv) (b : Byte) (h4 : 4 ≤ s.cnt.toNat)
    (hp : s.cnt.toNat < 4 + s.len.toNat) : s.sum.toNat + b.toNat < 65536 := by
  have hle := byteSum_le (s.payBytes s.received)
  rw [← h.sum_exact, State.payBytes_length] at hle
  have hr : s.received ≤ 254 := by
    simp only [State.received, Config.headerBytes]; have := s.len.isLt; omega
  have := b.isLt
  omega

/-- The BYTE that completes a frame keeps the invariant. -/
theorem State.Inv.deliver_last {s : State} (h : s.Inv) (b : Byte) (hc : s.cnt.toNat = 6 + s.len.toNat) :
    (({ s with eof := b, cnt := s.cnt + 1 } : State).finalize).Inv := by
  have hcs := h.cnt_succ
  have hrec : s.received = s.len.toNat := by simp only [State.received, Config.headerBytes]; omega
  have hsum := h.sum_exact
  rw [hrec] at hsum
  constructor
  case pay_wf => exact h.pay_wf
  case pay_written =>
    intro i hi
    apply h.pay_written i
    rw [hrec]
    simp only [State.received, Config.headerBytes, State.finalize_cnt, State.finalize_len, hcs] at hi
    omega
  case sum_exact =>
    have e : (({ s with eof := b, cnt := s.cnt + 1 } : State).finalize).received = s.len.toNat := by
      simp only [State.received, Config.headerBytes, State.finalize_cnt, State.finalize_len]; omega
    rw [e]; exact hsum
  case calcchk_full => intro _; exact computedChecksum_eq_checksum _ _ _ hsum
  case idle => intro hh; cases hh
  case recv => intro hh; cases hh
  case done =>
    intro _
    refine ⟨?_, rfl⟩
    simp only [State.finalize_cnt, State.finalize_len, hcs, Config.overheadBytes]; omega
  all_goals simp only [State.finalize_cnt, State.finalize_len, hcs, Config.overheadBytes]; omega

/-- A BYTE before the last keeps the invariant. -/
theorem State.Inv.deliver_more {s : State} (h : s.Inv) (hs : s.fsm = .recv) (b : Byte)
    (hc : s.cnt.toNat ≠ 6 + s.len.toNat) : ({ s.capture s.cnt.toNat b with cnt := s.cnt + 1 } : State).Inv := by
  have hcs := h.cnt_succ
  have hlt := (h.recv hs).2
  have hv := (h.recv hs).1
  have hll := s.len.isLt
  simp only [Config.overheadBytes] at hlt
  generalize hk : s.cnt.toNat = k at *
  generalize ht : ({ s.capture k b with cnt := s.cnt + 1 } : State) = t
  have tcnt : t.cnt.toNat = k + 1 := by rw [← ht]; exact hcs
  have tlen : t.len = if k = 3 then b else s.len := by rw [← ht]; exact State.capture_len s k b
  have tfsm : t.fsm = .recv := by rw [← ht]; exact (State.capture_fsm s k b).trans hs
  have tpay : t.paybuf = if 4 ≤ k ∧ k < 4 + s.len.toNat then Paybuf.write s.paybuf (k - 4) b else s.paybuf := by
    rw [← ht]; exact State.capture_paybuf s k b
  have tbyte : ∀ i, t.payByte i = if 4 ≤ k ∧ k < 4 + s.len.toNat ∧ i = k - 4 then b else s.payByte i := by
    rw [← ht]; exact State.capture_payByte s k b
  have lz : k < 4 → s.len.toNat = 0 := fun h4 => by rw [h.len_zero (by omega)]; rfl
  have srec : s.received = min (k - 4) s.len.toNat := by simp only [State.received, Config.headerBytes, hk]
  have trec : t.received = min (k - 3) s.len.toNat := by
    simp only [State.received, Config.headerBytes, tcnt, tlen]
    by_cases h3 : k = 3
    · have := lz (by omega); rw [if_pos h3]; omega
    · rw [if_neg h3]; omega
  constructor
  case pay_wf =>
    rw [tpay]
    split
    · exact Paybuf.wf_write _ _ _ h.pay_wf (by simp only [Config.payBufSize]; omega)
    · exact h.pay_wf
  case pay_written =>
    intro i hi
    rw [trec] at hi
    rw [tpay]
    split
    · by_cases hik : i = k - 4
      · exact ⟨b, by rw [hik]; exact Paybuf.read_write_same _ _ _⟩
      · rw [Paybuf.read_write_other _ _ _ _ hik]
        exact h.pay_written i (by omega)
    · exact h.pay_written i (by omega)
  case cnt_le => rw [tcnt, tlen, Config.overheadBytes]; split <;> omega
  case len_zero => intro h4; rw [tcnt] at h4; rw [tlen, if_neg (by omega)]; exact h.len_zero (by omega)
  case sum_exact =>
    have hsum := h.sum_exact
    have ts : t.sum = if k = 3 then 0 else if 4 ≤ k ∧ k < 4 + s.len.toNat then s.sum + b.setWidth 16 else s.sum := by
      rw [← ht]; exact State.capture_sum s k b
    by_cases h3 : k = 3
    · have e : t.received = 0 := by rw [trec]; have := lz (by omega); omega
      rw [e, ts, if_pos h3]; rfl
    · rw [ts, if_neg h3]
      by_cases hw : 4 ≤ k ∧ k < 4 + s.len.toNat
      · have hno := h.sum_no_wrap b (by omega) (by omega)
        have e1 : t.payBytes (k - 4) = s.payBytes (k - 4) :=
          State.payBytes_congr fun i hi => by rw [tbyte, if_neg (by omega)]
        have e2 : t.payByte (k - 4) = b := by rw [tbyte, if_pos ⟨hw.1, hw.2, rfl⟩]
        rw [if_pos hw, trec, show min (k - 3) s.len.toNat = (k - 4) + 1 by omega, State.payBytes_succ,
          byteSum_append, e1, e2]
        rw [srec, show min (k - 4) s.len.toNat = k - 4 by omega] at hsum
        have := b.isLt
        rw [BitVec.toNat_add, BitVec.toNat_setWidth]
        simp only [byteSum]
        omega
      · have e : t.received = s.received := by
          rw [trec, srec]
          by_cases h4 : 4 ≤ k
          · omega
          · have := lz (by omega); omega
        rw [if_neg hw, e, hsum]
        congr 1
        exact State.payBytes_congr fun i hi => by rw [tbyte, if_neg (by omega)]
  case sof_zero => rw [tcnt]; omega
  case rxreg_zero =>
    intro h1; rw [tcnt] at h1
    rw [← ht]
    show (s.capture k b).rxreg = 0
    rw [State.capture_rxreg, if_neg (by omega)]; exact h.rxreg_zero (by omega)
  case errflag_zero =>
    intro h1; rw [tcnt] at h1
    rw [← ht]
    show (s.capture k b).errflag = 0
    rw [State.capture_errflag, if_neg (by omega)]; exact h.errflag_zero (by omega)
  case rxchk_zero =>
    intro h1; rw [tcnt, tlen] at h1
    rw [← ht]
    show (s.capture k b).rxchk = 0
    rw [State.capture_rxchk]
    by_cases h3 : k = 3
    · rw [if_neg (by omega), if_neg (by omega)]; exact h.rxchk_zero (by omega)
    · rw [if_neg h3] at h1
      rw [if_neg (by omega), if_neg (by omega)]; exact h.rxchk_zero (by omega)
  case rxchk_low_zero =>
    intro h1; rw [tcnt, tlen] at h1
    rw [← ht]
    show (s.capture k b).rxchk.extractLsb' 0 8 = 0
    rw [State.capture_rxchk]
    by_cases h3 : k = 3
    · rw [if_neg (by omega), if_neg (by omega)]; exact h.rxchk_low_zero (by omega)
    · rw [if_neg h3] at h1
      split
      · rw [(halves_of_append _ _).2]; exact h.rxchk_low_zero (by omega)
      · rw [if_neg (by omega)]; exact h.rxchk_low_zero (by omega)
  case eof_zero =>
    intro h1; rw [tcnt, tlen] at h1
    rw [← ht]
    show (s.capture k b).eof = 0
    rw [State.capture_eof, if_neg (by split at h1 <;> omega)]
    exact h.eof_zero (by split at h1 <;> omega)
  case calcchk_zero =>
    intro _
    rw [← ht]
    exact (State.capture_calcchk s k b).trans (h.calcchk_zero (by simp only [Config.overheadBytes]; omega))
  case calcchk_full => intro h1; exfalso; rw [tcnt, tlen, Config.overheadBytes] at h1; split at h1 <;> omega
  case idle => intro hh; rw [tfsm] at hh; cases hh
  case recv =>
    intro _
    refine ⟨by rw [← ht]; exact (State.capture_verdict s k b).trans hv, ?_⟩
    rw [tcnt, tlen, Config.overheadBytes]; split <;> omega
  case done => intro hh; rw [tfsm] at hh; cases hh

end Sys2Proof.Machine
end

