-- ==== Sys2Proof/Laws/Prefix.lean ====
section
/-! SUPPORT. What the receiver holds after START and the first k bytes of a frame, k below the frame's length: the
induction over a byte stream, packaged once. -/

namespace Sys2Proof.Machine

open Reference

theorem decode_encode_start (a : Byte) : decode (encode (.start a)) = .command (.start a) := by
  obtain ⟨h1, h2, h3, -⟩ := Laws.EncodedFields.start a
  unfold decode
  rw [if_pos h2, h1, h3]
  rfl

theorem decode_encode_byte (b : Byte) : decode (encode (.byte b)) = .command (.byte b) := by
  obtain ⟨h1, h2, h3, -⟩ := Laws.EncodedFields.byte b
  unfold decode
  rw [if_pos h2, h1, h3]
  rfl

/-- START issued outside RECV, as a step. -/
theorem step_start {s : State} (a : Byte) (rest : List HostInput) (hh : s.host = .command (encode (.start a)) :: rest)
    (hs : s.fsm ≠ .recv) :
    step s = .next ((({ s with host := rest } : State).arm a).accept (({ s with host := rest } : State).arm a).stat) := by
  rw [step_command hh, runWord_command _ (decode_encode_start a)]
  exact exec_start_armed _ a hs

/-- BYTE issued in RECV, as a step. -/
theorem step_byte {s : State} (b : Byte) (rest : List HostInput) (hh : s.host = .command (encode (.byte b)) :: rest)
    (hs : s.fsm = .recv) :
    step s =
      .next ((({ s with host := rest } : State).deliver b).accept (({ s with host := rest } : State).deliver b).stat) := by
  rw [step_command hh, runWord_command _ (decode_encode_byte b)]
  exact exec_byte_delivered _ b hs

/-- BYTE issued outside RECV, as a step. -/
theorem step_byte_rejected {s : State} (b : Byte) (rest : List HostInput)
    (hh : s.host = .command (encode (.byte b)) :: rest) (hs : s.fsm ≠ .recv) :
    step s = .next ({ s with host := rest } : State).raiseRejected := by
  rw [step_command hh, runWord_command _ (decode_encode_byte b)]
  exact exec_byte_rejected _ b hs

/-- The receiver after START r and the first k bytes of F, before the frame is complete (R110 to R112). -/
structure Received (r : Byte) (F : List Byte) (k : Nat) (s : State) : Prop where
  fsm : s.fsm = .recv
  verdict : s.verdict = .none
  expreg : s.expreg = r
  cnt : s.cnt.toNat = k
  sof : 0 < k → s.sof = frameByte F 0
  rxreg : 1 < k → s.rxreg = frameByte F 1
  errflag : 2 < k → s.errflag = frameByte F 2
  len : s.len = if 3 < k then frameByte F 3 else 0
  sum : s.sum.toNat = byteSum ((F.drop 4).take (min (k - 4) (frameLen F)))
  chk_high : 4 + frameLen F < k → s.rxchk.extractLsb' 8 8 = frameByte F (4 + frameLen F)
  chk_low : 5 + frameLen F < k → s.rxchk.extractLsb' 0 8 = frameByte F (5 + frameLen F)
  pay : ∀ i, i < min (k - 4) (frameLen F) → s.payByte i = frameByte F (4 + i)
  cause : s.cause = .accepted

theorem Received.withHost {r : Byte} {F : List Byte} {k : Nat} {s : State} (g : Received r F k s)
    (l : List HostInput) : Received r F k { s with host := l } :=
  ⟨g.fsm, g.verdict, g.expreg, g.cnt, g.sof, g.rxreg, g.errflag, g.len, g.sum, g.chk_high, g.chk_low, g.pay, g.cause⟩

theorem received_start (r : Byte) (F : List Byte) (s : State) :
    Received r F 0 ((s.arm r).accept (s.arm r).stat) := by
  constructor <;> simp [byteSum]

/-- One more byte of the frame, not its last. -/
theorem Received.next {r : Byte} {F : List Byte} {k : Nat} {s : State} (g : Received r F k s) (hk : k < F.length)
    (hk' : k + 1 < frameLen F + 7) (w : Word) : Received r F (k + 1) ((s.deliver (frameByte F k)).accept w) := by
  have hL : frameLen F < 256 := (frameByte F 3).isLt
  have hlen : 4 ≤ k → s.len.toNat = frameLen F := fun h => by rw [g.len, if_pos (by omega)]; rfl
  have hlen0 : k < 4 → s.len.toNat = 0 := fun h => by rw [g.len, if_neg (by omega)]; rfl
  have hcnt := g.cnt
  have hc : s.cnt.toNat ≠ 6 + s.len.toNat := by
    by_cases h : 4 ≤ k
    · rw [hlen h]; omega
    · have := hlen0 (by omega); omega
  have hs : (s.cnt + 1).toNat = k + 1 := by
    have : (s.cnt + 1).toNat = (s.cnt.toNat + 1) % 512 := by rw [BitVec.toNat_add]; rfl
    omega
  rw [State.deliver_more s _ hc, hcnt]
  constructor
  case fsm => simp [g.fsm]
  case verdict => simp [g.verdict]
  case expreg => simp [g.expreg]
  case cnt => exact hs
  case sof =>
    intro h; simp only [State.accept_sof, State.capture_sof]; split
    · rename_i h'; rw [h']
    · exact g.sof (by omega)
  case rxreg =>
    intro h; simp only [State.accept_rxreg, State.capture_rxreg]; split
    · rename_i h'; rw [h']
    · exact g.rxreg (by omega)
  case errflag =>
    intro h; simp only [State.accept_errflag, State.capture_errflag]; split
    · rename_i h'; rw [h']
    · exact g.errflag (by omega)
  case len =>
    simp only [State.accept_len, State.capture_len]
    by_cases h3 : k = 3
    · rw [if_pos h3, if_pos (by omega), h3]
    · rw [if_neg h3, g.len]
      by_cases h4 : 3 < k
      · rw [if_pos h4, if_pos (by omega)]
      · rw [if_neg h4, if_neg (by omega)]
  case sum =>
    simp only [State.accept_sum, State.capture_sum]
    by_cases h3 : k = 3
    · rw [if_pos h3, h3]; simp [byteSum]
    · rw [if_neg h3]
      by_cases hp : 4 ≤ k ∧ k < 4 + frameLen F
      · have e : (F.drop 4).getD (k - 4) 0 = frameByte F k := by
          simp only [frameByte, List.getD, List.getElem?_drop]; rw [show 4 + (k - 4) = k by omega]
        have hsum := g.sum
        rw [show min (k - 4) (frameLen F) = k - 4 by omega] at hsum
        have hle := byteSum_le ((F.drop 4).take (k - 4))
        have : ((F.drop 4).take (k - 4)).length ≤ k - 4 := by simp
        have := (frameByte F k).isLt
        rw [hlen hp.1, if_pos hp, show min (k + 1 - 4) (frameLen F) = (k - 4) + 1 by omega,
          byteSum_take_succ _ _ (by simp; omega), e, BitVec.toNat_add, BitVec.toNat_setWidth, hsum]
        omega
      · have hn : ¬ (4 ≤ k ∧ k < 4 + s.len.toNat) := by
          by_cases h4 : 4 ≤ k
          · rw [hlen h4]; exact hp
          · omega
        rw [if_neg hn, show min (k + 1 - 4) (frameLen F) = min (k - 4) (frameLen F) by omega]
        exact g.sum
  case chk_high =>
    intro h
    have h4 : 4 ≤ k := by omega
    simp only [State.accept_rxchk, State.capture_rxchk, hlen h4]
    split
    · rename_i h'; rw [(halves_of_append _ _).1, h'.2]
    · split
      · rw [(halves_of_append _ _).1]; exact g.chk_high (by omega)
      · exact g.chk_high (by omega)
  case chk_low =>
    intro h
    have h4 : 4 ≤ k := by omega
    simp only [State.accept_rxchk, State.capture_rxchk, hlen h4]
    rw [if_neg (by omega)]
    split
    · rename_i h'; rw [(halves_of_append _ _).2, h'.2]
    · exact g.chk_low (by omega)
  case pay =>
    intro i hi
    show (s.capture k _).payByte i = _
    rw [State.capture_payByte]
    split
    · rw [show 4 + i = k by omega]
    · rename_i h'
      by_cases h4 : 4 ≤ k
      · rw [hlen h4] at h'; exact g.pay i (by omega)
      · omega
  case cause => rfl

/-- START r and the first k bytes of F, issued outside RECV, run to a state that has received them (R110 to R112). -/
theorem runs_received (r : Byte) (F : List Byte) (s : State) (hs : s.fsm ≠ .recv) (k : Nat) (hk : k ≤ F.length)
    (hk' : k < frameLen F + 7) (later : List HostInput) :
    ∃ t, Runs (k + 1) { s with host := issues (rxframe r (F.take k)) ++ later } t ∧ Received r F k t ∧
      t.host = later := by
  induction k generalizing later with
  | zero => exact ⟨_, runs_succ (step_start r later (by rfl) hs) (runs_zero _), received_start r F _, rfl⟩
  | succ k ih =>
    obtain ⟨t, hr, g, hh⟩ := ih (by omega) (by omega) (.command (encode (.byte (frameByte F k))) :: later)
    have e : issues (rxframe r (F.take (k + 1))) ++ later =
        issues (rxframe r (F.take k)) ++ (.command (encode (.byte (frameByte F k))) :: later) := by
      rw [List.take_add_one, List.getElem?_eq_getElem (by omega : k < F.length), getElem_eq_frameByte (by omega)]
      simp [issues, rxframe]
    rw [e]
    refine ⟨_, runs_add hr (runs_succ (step_byte _ later hh g.fsm) (runs_zero _)),
      (g.withHost later).next (by omega) (by omega) _, ?_⟩
    simp only [State.accept_host, State.deliver_host]

/-- The moves that issue a frame, cut after its first k bytes. -/
theorem issues_rxframe_split (r : Byte) (F : List Byte) (k : Nat) (later : List HostInput) :
    issues (rxframe r F) ++ later = issues (rxframe r (F.take k)) ++ (issues ((F.drop k).map .byte) ++ later) := by
  conv_lhs => rw [← List.take_append_drop k F]
  simp [issues, rxframe, -List.take_append_drop]

/-- A block with nothing issued stays as it is (R119). -/
theorem runs_waiting {s : State} (h : s.host = []) (k : Nat) : Runs k s s := by
  induction k with
  | zero => exact runs_zero s
  | succ k ih => exact runs_succ (step_nil h) ih

end Sys2Proof.Machine
end

