-- ==== Sys2Proof/Tests/Slice0.lean ====
section
/-! SUPPORT. Tests from the spec's own encodings and vectors (30_encoding.md R78, R80; 95_test_vectors.md), the smoke test
of WellFormed, and a witness for the hypotheses of each statement. -/

namespace Sys2Proof.Tests

open Sys2Proof Sys2Proof.Machine Sys2Proof.Machine.Reference

/-! Well-formedness: the one check, and a term it refuses. -/

theorem test_wellFormed_rdreg_four_refused : (Instr.rdreg 4).wellFormed = false := by decide
theorem test_wellFormed_rdreg_255_refused : (Instr.rdreg 255).wellFormed = false := by decide
theorem test_wellFormed_rdreg_three : (Instr.rdreg 3).wellFormed = true := by decide

/-! Words written out field by field, OP RSV A V, from R70, R72 and R78. -/

theorem test_decode_nop : decode ((0b0000#4) ++ (0b0000#4) ++ (0x12#8) ++ (0x3456#16)) = .command .nop := by decide
theorem test_decode_start : decode ((0b0001#4) ++ (0b0000#4) ++ (0x04#8) ++ (0#16)) = .command (.start 0x04) := by decide
theorem test_decode_byte : decode ((0b0010#4) ++ (0b0000#4) ++ (0xDD#8) ++ (0#16)) = .command (.byte 0xDD) := by decide
theorem test_decode_abort : decode ((0b0011#4) ++ (0b0000#4) ++ (0xFF#8) ++ (0#16)) = .command .abort := by decide
theorem test_decode_rdpay : decode ((0b0100#4) ++ (0b0000#4) ++ (0x07#8) ++ (0#16)) = .command (.rdpay 7) := by decide
theorem test_decode_rdreg : decode ((0b0101#4) ++ (0b0000#4) ++ (0x02#8) ++ (0#16)) = .command (.rdreg 2) := by decide
theorem test_decode_ddate : decode ((0b1000#4) ++ (0b0000#4) ++ (0#8) ++ (0x2842#16)) = .command (.ddate 0x2842) := by decide
theorem test_decode_dprot : decode ((0b1001#4) ++ (0b0000#4) ++ (0#8) ++ (0x0003#16)) = .command (.dprot 3) := by decide
theorem test_decode_dbal : decode ((0b1010#4) ++ (0b0000#4) ++ (4#8) ++ (0x0005#16)) = .command (.dbal 4 5) := by decide
theorem test_decode_dcd : decode ((0b1011#4) ++ (0b0000#4) ++ (0#8) ++ (0x0003#16)) = .command (.dcd 3) := by decide
theorem test_decode_reserved_op : decode 0x60000000 = .illegal .reservedOpcode := by decide
theorem test_decode_reserved_field : decode 0x11030000 = .illegal .reservedField := by decide
theorem test_decode_register_number : decode 0x50040000 = .illegal .registerNumber := by decide
theorem test_decodeTableWord : decodeTableWord 32 0xA0040005 = some (.dbal 4 5) := by decide

/-! Small states for one step each. -/

/-- RESP and CAUSE of a command. -/
def answer : Host.Outcome State Fault Refusal → Option (Word × Cause)
  | .next t => some (t.resp, t.cause)
  | .fault _ => none
  | .refused _ => none

/-- A field of the next state. -/
def after {α : Type} (f : State → α) : Host.Outcome State Fault Refusal → Option α
  | .next t => some (f t)
  | .fault _ => none
  | .refused _ => none

/-- After CV4: START 0x03 from reset. -/
def armed : State := { State.reset with fsm := .recv, expreg := 0x03 }

/-- Program P1 before its second payload byte: CNT = 5. -/
def inPayload : State :=
  { State.reset with
    fsm := .recv, expreg := 0x04, sof := 0xDD, rxreg := 0x04, len := 8, cnt := 5, sum := 0x0C, paybuf := [(0, 0x0C)] }

/-- Program P1 before its first and its second checksum byte, and before its stop byte: CNT = 12, 13, 14. -/
def beforeChecksum : State :=
  { inPayload with
    cnt := 12, sum := 966
    paybuf := [(0, 0x0C), (1, 0xE4), (2, 0x0C), (3, 0xE5), (4, 0x0C), (5, 0xE6), (6, 0x0C), (7, 0xE7)] }

def beforeSecondChecksum : State := { beforeChecksum with cnt := 13, rxchk := 0xFC00 }

def beforeStop : State := { beforeChecksum with cnt := 14, rxchk := 0xFC32 }

/-- After FR1: the OK frame FA. -/
def afterFA : State :=
  { beforeStop with fsm := .done, verdict := .ok, cnt := 15, calcchk := 0xFC32, eof := 0x77, resp := 0x04040806 }

/-- After FR14, `DD 03 00 01 00 FF FF 77`: one payload byte, 0. -/
def afterFR14 : State :=
  { State.reset with
    fsm := .done, verdict := .ok, expreg := 0x03, sof := 0xDD, rxreg := 0x03, len := 1, cnt := 8, rxchk := 0xFFFF
    calcchk := 0xFFFF, eof := 0x77, paybuf := [(0, 0x00)] }

/-! The commands, by the vectors of 95_test_vectors.md. -/

theorem test_nop_ignores_operands : answer (runWord 0x00123456 State.reset) = some (0, .accepted) := by decide  -- CV2
theorem test_start : answer (exec (.start 0x03) State.reset) = some (0x00030001, .accepted) := by decide  -- CV4
theorem test_start_in_recv : answer (exec (.start 0x04) armed) = some (0x00030001, .rejected) := by decide  -- CV5
theorem test_byte_stop : answer (exec (.byte 0x77) beforeStop) = some (0x04040806, .accepted) := by decide  -- FR1
theorem test_byte_payload :
    after (fun t => (t.paybuf, t.sum, t.cnt)) (exec (.byte 0xE4) inPayload) = some ([(0, 0x0C), (1, 0xE4)], 0xF0, 6) := by
  decide  -- P1
theorem test_abort : answer (exec .abort armed) = some (0x00030000, .accepted) := by decide  -- CV8
theorem test_abort_done : answer (exec .abort afterFA) = some (0x04040800, .accepted) := by decide  -- CV13
theorem test_rdpay : answer (exec (.rdpay 7) afterFA) = some (0x000001E7, .accepted) := by decide  -- CV10
theorem test_rdpay_at_len : answer (exec (.rdpay 8) afterFA) = some (0, .accepted) := by decide  -- CV10
theorem test_rdreg_pos : answer (exec (.rdreg 1) afterFA) = some (0xDD00000F, .accepted) := by decide  -- P1
theorem test_rdreg_acc : answer (exec (.rdreg 3) afterFA) = some (0x007703C6, .accepted) := by decide  -- P1
theorem test_ddate : answer (exec (.ddate 0x2A5F) armed) = some (0x07E5021F, .accepted) := by decide
theorem test_ddate_all_ones : answer (exec (.ddate 0xFFFF) armed) = some (0x084F0F1F, .accepted) := by decide
theorem test_dprot : answer (exec (.dprot 0x2001) armed) = some (0x00000001, .accepted) := by decide
theorem test_dprot_all_ones : answer (exec (.dprot 0xFFFF) armed) = some (0x00001FFF, .accepted) := by decide
theorem test_dbal_masks : answer (exec (.dbal 4 0x00F0) armed) = some (0x00040000, .accepted) := by decide
theorem test_dbal_many_cells : answer (exec (.dbal 20 0xFFFF) armed) = some (0x0014FFFF, .accepted) := by decide
theorem test_dcd : answer (exec (.dcd 0x00FD) armed) = some (0x00000001, .accepted) := by decide
theorem test_dcd_charging : answer (exec (.dcd 0x0002) armed) = some (0x00000002, .accepted) := by decide
theorem test_illegal_in_recv : answer (runWord 0x11030000 armed) = some (0, .illegal) := by decide  -- CV6
theorem test_step_from_reset :
    answer (step (State.reset.withFetchWord 32 0x20DD0000)) = some (0x00000000, .rejected) := by decide  -- CV3

/-! The reference functions, by sections 1 and 2.1, 2.2, 2.6 of 95_test_vectors.md. -/

theorem test_checksum_FA : checksum 8 [0x0C, 0xE4, 0x0C, 0xE5, 0x0C, 0xE6, 0x0C, 0xE7] = 0xFC32 := by decide
theorem test_checksum_declared_length :
    checksum 9 [0x0C, 0xE4, 0x0C, 0xE5, 0x0C, 0xE6, 0x0C, 0xE7, 0x00] = 0xFC31 := by decide
theorem test_validate_FR4 :
    validate Config.basicInfo [0xDD, 0x04, 0x01, 0x01, 0x0C, 0x03, 0x32, 0x77] = some .deviceError := by decide
theorem test_validate_FR14 :
    validate Config.basicInfo [0xDD, 0x03, 0x00, 0x01, 0x00, 0xFF, 0xFF, 0x77] = some (.ok [0x00]) := by decide
theorem test_protection_states : decodeProtectionStates 0b11 = [.singleOvervoltage, .singleUndervoltage] := by decide
theorem test_balance_states : decodeBalanceStates 0b0101 4 = [true, false, true, false] := by decide
theorem test_payload_field_date :
    decodeDate (payloadField 0x28 0x42) = { year := 2020, month := 2, day := 2 } := by decide  -- S1, P2

/-! The assembler (R78, R79). -/

theorem test_assemble_start :
    Assembler.assemble ['S', 'T', 'A', 'R', 'T', ' ', '0', 'x', '0', '4', ' ', ';', 'r'] = .ok [0x10040000] := by decide
theorem test_assemble_rdreg_name :
    Assembler.assemble ['R', 'D', 'R', 'E', 'G', ' ', 'C', 'H', 'K', 'S', '\n', 'N', 'O', 'P'] =
      .ok [0x50020000, 0] := by decide
theorem test_assemble_dbal :
    Assembler.assemble ['D', 'B', 'A', 'L', ' ', '0', 'b', '1', '0', '1', ',', ' ', '4'] = .ok [0xA0040005] := by decide
theorem test_assemble_range :
    Assembler.assemble ['B', 'Y', 'T', 'E', ' ', '2', '5', '6'] = .error .operandRange := by decide

/-! Witnesses: a concrete state, word and operands that meet the hypotheses of each statement together. -/

theorem witness_afterFR14_inv : afterFR14.Inv := by
  constructor <;>
    simp [afterFR14, State.reset, State.received, State.payBytes, State.payByte, Paybuf.read, Paybuf.wf, Paybuf.rising,
      Config.payBufSize, Config.overheadBytes, Config.headerBytes, byteSum, verdictOf, List.range_succ]
  decide

/-- In the payload of FR14's frame, before its payload byte: CNT = 4. -/
def inFR14 : State :=
  { State.reset with fsm := .recv, expreg := 0x03, sof := 0xDD, rxreg := 0x03, len := 1, cnt := 4 }

theorem witness_inFR14_inv : inFR14.Inv := by
  constructor <;>
    simp [inFR14, State.reset, State.received, State.payBytes, Paybuf.wf, Paybuf.rising, Config.overheadBytes,
      Config.headerBytes, byteSum]

theorem witness_DecodeOfEncodeIsTheCommand : (Instr.rdreg 3).wellFormed = true := by decide
theorem witness_EncodeOfDecodeClearsIgnoredFields : decode 0x1004FFFF = .command (.start 0x04) := by decide
theorem witness_LegalWordsAndNoOthersDecode : decode 0x50040000 = .illegal .registerNumber := by decide
/-- The register number at both ends of RDREG's clauses: 3 decodes, 4 does not. -/
theorem witness_DispatchFollowsTheOpcodeMap :
    (0x50030000 : Word).extractLsb' 24 4 = 0 ∧ (0x50030000 : Word).extractLsb' 28 4 = 0x5 ∧
    ((0x50030000 : Word).extractLsb' 16 8).toNat ≤ 3 ∧ 3 < ((0x50040000 : Word).extractLsb' 16 8).toNat ∧
    (0x50040000 : Word).extractLsb' 28 4 = 0x5 ∧ (0x1F000000 : Word).extractLsb' 24 4 ≠ 0 ∧
    (0xC0000000 : Word).extractLsb' 28 4 ∈ ([0x6, 0x7, 0xC, 0xD, 0xE, 0xF] : List (BitVec 4)) := by decide
/-- Operands at the ends of their ranges: each clause, and its neighbour. -/
theorem witness_AssemblerWritesTheEncodedWord :
    255 ≤ 255 ∧ 255 < 256 ∧ 65535 ≤ 65535 ∧ 65535 < 65536 ∧ (255 < 256 ∨ 65535 < 65535) := by decide
theorem witness_StepExecutesTheIssuedCommand :
    (State.reset.withFetchWord 32 0x10040000).host = .command 0x10040000 :: [] ∧
    decode 0x10040000 = .command (.start 0x04) := by decide
theorem witness_IllegalWordChangesOnlyTheResponse :
    (armed.withFetchWord 32 0x11030000).host = .command 0x11030000 :: [] ∧
    (0x11030000 : Word).extractLsb' 24 4 ≠ 0 ∧
    (0x50040000 : Word).extractLsb' 28 4 = 0x5 ∧ 4 ≤ ((0x50040000 : Word).extractLsb' 16 8).toNat := by decide
theorem witness_RejectedCommandChangesOnlyTheResponse :
    armed.fsm = .recv ∧ State.reset.fsm = .idle ∧ afterFA.fsm = .done := by decide
theorem witness_IllegalCheckComesFirst :
    (∃ t, runWord 0x20770000 beforeStop = .next t ∧ t.verdict ≠ beforeStop.verdict ∧ t.verdict ≠ .none) ∧
    decode 0x11030000 = .illegal .reservedField := ⟨⟨_, rfl, by decide, by decide⟩, by decide⟩
theorem witness_ReceiverStateMovesOnlyAsNamed :
    (∃ t, exec (.start 0x04) State.reset = .next t ∧ State.reset.fsm ≠ .recv) ∧
    (∃ t, exec (.byte 0x77) beforeStop = .next t ∧ beforeStop.fsm = .recv ∧
      beforeStop.cnt.toNat = 6 + beforeStop.len.toNat) ∧
    (∃ t, exec .abort afterFA = .next t) ∧
    (∃ t, step (beforeStop.withFetchWord 32 0x20770000) = .next t ∧ t.fsm ≠ beforeStop.fsm) :=
  ⟨⟨_, rfl, by decide⟩, ⟨_, rfl, by decide, by decide⟩, ⟨_, rfl⟩, ⟨_, rfl, by decide⟩⟩
theorem witness_VerdictIsWrittenOnlyAsNamed :
    afterFR14.Inv ∧
    ∃ t, step (beforeStop.withFetchWord 32 0x20770000) = .next t ∧ t.verdict ≠ beforeStop.verdict :=
  ⟨witness_afterFR14_inv, _, rfl, by decide⟩
theorem witness_OnlyStartByteAbortWriteRegisters :
    (∃ t, runWord 0x50000000 afterFA = .next t) ∧ decode 0x50000000 = .command (.rdreg 0) ∧
    4 ≤ (4 : Byte).toNat ∧ (∃ t, exec (.byte 0x77) beforeStop = .next t) ∧ ∃ t, exec .abort armed = .next t :=
  ⟨⟨_, rfl⟩, by decide, by decide, ⟨_, rfl⟩, ⟨_, rfl⟩⟩
theorem witness_NopAnswersStat :
    (0x00123456 : Word).extractLsb' 28 4 = 0 ∧ (0x00123456 : Word).extractLsb' 24 4 = 0 ∧
    (0x01000000 : Word).extractLsb' 28 4 = 0 ∧ (0x01000000 : Word).extractLsb' 24 4 ≠ 0 := by decide
theorem witness_StartArmsTheReceiver :
    afterFA.fsm ≠ .recv ∧ (∃ t, exec (.start 0x04) afterFA = .next t) ∧ armed.fsm = .recv ∧
    (0x1004FFFF : Word).extractLsb' 28 4 = 0x1 ∧ (0x1004FFFF : Word).extractLsb' 24 4 = 0 :=
  ⟨by decide, ⟨_, rfl⟩, by decide, by decide, by decide⟩
/-- Every clause of the offsets: header, first payload byte (with the invariant), both checksum bytes, stop byte. -/
theorem witness_ByteStoresByFrameOffset :
    armed.fsm = .recv ∧ armed.cnt.toNat = 0 ∧
    (inFR14.fsm = .recv ∧ inFR14.Inv ∧ 4 ≤ inFR14.cnt.toNat ∧ inFR14.cnt.toNat < 4 + inFR14.len.toNat) ∧
    (beforeChecksum.fsm = .recv ∧ beforeChecksum.cnt.toNat = 4 + beforeChecksum.len.toNat) ∧
    (beforeSecondChecksum.fsm = .recv ∧ beforeSecondChecksum.cnt.toNat = 5 + beforeSecondChecksum.len.toNat) ∧
    (beforeStop.fsm = .recv ∧ beforeStop.cnt.toNat = 6 + beforeStop.len.toNat) :=
  ⟨by decide, by decide, ⟨by decide, witness_inFR14_inv, by decide, by decide⟩, by decide, by decide, by decide⟩
theorem witness_ByteCountsUntilTheStopByte :
    beforeSecondChecksum.fsm = .recv ∧ beforeSecondChecksum.cnt.toNat ≠ 6 + beforeSecondChecksum.len.toNat ∧
    State.reset.fsm ≠ .recv := by decide
/-- The four verdict clauses, each at one state that differs from FR1's in what the clause names. -/
theorem witness_StopByteComputesTheVerdict :
    beforeStop.fsm = .recv ∧ beforeStop.cnt.toNat = 6 + beforeStop.len.toNat ∧
    after State.verdict (exec (.byte 0x77) { beforeStop with errflag := 0x80 }) = some .deviceError ∧  -- FR3
    after State.verdict (exec (.byte 0x77) { beforeStop with expreg := 0x03 }) = some .protocolMismatch ∧  -- FR2
    after State.verdict (exec (.byte 0x77) { beforeStop with rxchk := 0x32FC }) = some .checksumError ∧  -- FR6
    after State.verdict (exec (.byte 0x00) beforeStop) = some .ok := by decide  -- FR10
theorem witness_AbortDiscardsTheFrame :
    (∃ t, exec .abort afterFA = .next t) ∧ (0x30FF0000 : Word).extractLsb' 28 4 = 0x3 ∧
    (0x30FF0000 : Word).extractLsb' 24 4 = 0 := ⟨⟨_, rfl⟩, by decide, by decide⟩
/-- The last readable index of a frame of one payload byte, and the first that is not. -/
theorem witness_RdpayReadsOnlyAValidPayload :
    afterFR14.fsm = .done ∧ afterFR14.verdict = .ok ∧ (0 : Byte).toNat < afterFR14.len.toNat ∧
    ¬ (1 : Byte).toNat < afterFR14.len.toNat ∧ State.reset.len = 0 ∧ State.reset.verdict ≠ .ok ∧
    (0x40070000 : Word).extractLsb' 28 4 = 0x4 ∧ (0x40070000 : Word).extractLsb' 24 4 = 0 := by decide
theorem witness_ReadablePayloadByteWasReceived :
    afterFR14.Inv ∧ afterFR14.fsm = .done ∧ afterFR14.verdict = .ok ∧ (0 : Byte).toNat < afterFR14.len.toNat :=
  ⟨witness_afterFR14_inv, by decide, by decide, by decide⟩
theorem witness_RdregAnswersTheNumberedRegister :
    4 ≤ (4 : Byte).toNat ∧ (0x50030000 : Word).extractLsb' 28 4 = 0x5 ∧
    ((0x50030000 : Word).extractLsb' 16 8).toNat ≤ 3 ∧ 4 ≤ ((0x50040000 : Word).extractLsb' 16 8).toNat := by decide
theorem witness_ReadOnlyCommandsAreIdempotent :
    State.reset.fsm ≠ .recv ∧ armed.fsm = .recv ∧ armed.fsm ≠ .idle ∧
    (∃ t, exec (.rdpay 0) afterFA = .next t) := ⟨by decide, by decide, by decide, ⟨_, rfl⟩⟩
theorem witness_DecodersAreCombinational :
    ∃ i : Instr, i = .dbal 4 5 ∧
      (match i with
        | .ddate _ => True | .dprot _ => True | .dbal _ _ => True | .dcd _ => True
        | .nop => False | .start _ => False | .byte _ => False | .abort => False | .rdpay _ => False
        | .rdreg _ => False) := ⟨_, rfl, trivial⟩
theorem witness_DprotAnswersTheActiveSet : (0xE000 : Half).extractLsb' 0 13 = (0 : Half).extractLsb' 0 13 := by decide
/-- Indices at both ends of DBAL's clauses: bit 15, cell 254. -/
theorem witness_DbalAnswersTheBalanceList : 15 < 16 ∧ 254 < (255 : Byte).toNat ∧ (0 : Byte) = 0 := by decide
theorem witness_DcdAnswersTheTwoFlags : (0xFFFC : Half).extractLsb' 0 2 = (0 : Half).extractLsb' 0 2 := by decide
theorem witness_ChecksumNegatesTheSum :
    [(0xFF : Byte)].length = 1 ∧ (List.replicate 255 (0xFF : Byte)).length = 255 ∧ 1 ≤ 255 :=
  ⟨rfl, List.length_replicate, by omega⟩
theorem witness_ChecksumIgnoresOrderAndUncoveredBytes :
    isFrame [0xDD, 0x03, 0x00, 0x01, 0x00, 0xFF, 0xFF, 0x77] ∧
    5 = 4 + frameLen [0xDD, 0x03, 0x00, 0x01, 0x00, 0xFF, 0xFF, 0x77] ∧
    [(1 : Byte), 2].Perm [2, 1] := ⟨by unfold isFrame; decide, by decide, List.Perm.swap _ _ _⟩
theorem witness_ValidateReportsTheFirstFailingStep :
    isFrame [0xDD, 0x03, 0x00, 0x01, 0x00, 0xFF, 0xFF, 0x77] ∧
    validate 0x04 [0xDD, 0x03, 0x00, 0x01, 0x00, 0xFF, 0xFF, 0x77] = some .protocolMismatch ∧
    validate 0x03 [0xDD, 0x03, 0x80, 0x00, 0xFF, 0x80, 0x77] = some .deviceError ∧  -- FR12
    validate 0x03 [0xDD, 0x03, 0x00, 0x00, 0xFF, 0xFD, 0x77] = some .checksumError :=  -- FR9
  ⟨by unfold isFrame; decide, by decide, by decide, by decide⟩
theorem witness_ValidateIgnoresStartAndStopBytes :
    isFrame [0xDD, 0x03, 0x00, 0x00, 0x00, 0x00, 0x77] ∧ validate 0x03 [0xDD] = none ∧
    afterFR14.Inv ∧ afterFR14.fsm = .done := ⟨by unfold isFrame; decide, by decide, witness_afterFR14_inv, by decide⟩
theorem witness_PayloadMutationIsAChecksumError :
    validate 0x03 [0xDD, 0x03, 0x00, 0x01, 0x00, 0xFF, 0xFF, 0x77] = some (.ok [0x00]) ∧ 4 ≤ 4 ∧
    4 < 4 + frameLen [0xDD, 0x03, 0x00, 0x01, 0x00, 0xFF, 0xFF, 0x77] ∧
    (0xFF : Byte) ≠ frameByte [0xDD, 0x03, 0x00, 0x01, 0x00, 0xFF, 0xFF, 0x77] 4 := by decide
theorem witness_DoneRisesAndFallsOnlyAsNamed :
    beforeStop.done = false ∧ (∃ t, step (beforeStop.withFetchWord 32 0x20770000) = .next t ∧ t.done = true) ∧
    afterFA.done = true ∧ ∃ t, step (afterFA.withFetchWord 32 0x30000000) = .next t ∧ t.done = false :=
  ⟨by decide, ⟨_, rfl, by decide⟩, by decide, ⟨_, rfl, by decide⟩⟩
theorem witness_PaybufIsWrittenOnlyByPayloadBytes :
    ∃ t, step ({ inPayload with paybuf := [(0, 0x0C), (1, 0)] }.withFetchWord 32 0x20E40000) = .next t ∧
      t.payByte 1 ≠ ({ inPayload with paybuf := [(0, 0x0C), (1, 0)] } : State).payByte 1 := ⟨_, rfl, by decide⟩
theorem witness_PayloadLivesUntilStartAbortOrReset :
    afterFA.fsm = .done ∧ afterFA.verdict = .ok ∧ (∃ t, step (afterFA.withFetchWord 32 0x30000000) = .next t) ∧
    decode 0x30000000 = .command .abort ∧ ∃ t, step (afterFA.withFetchWord 32 0x40000000) = .next t :=
  ⟨by decide, by decide, ⟨_, rfl⟩, by decide, ⟨_, rfl⟩⟩
theorem witness_ShortStreamStaysInRecv :
    State.reset.fsm ≠ .recv ∧ isFrame [0xDD, 0x03, 0x00, 0x00, 0x00, 0x00, 0x77] ∧
    6 < [(0xDD : Byte), 0x03, 0x00, 0x00, 0x00, 0x00, 0x77].length ∧ 6 + 1 ≤ 7 :=
  ⟨by decide, by unfold isFrame; decide, by decide, by decide⟩
theorem witness_ResetSetsRegistersAndHidesPaybuf :
    ({ afterFA with host := [.reset] } : State).host = .reset :: [] := rfl
theorem witness_ReceiverInvariantIsKept :
    afterFR14.Inv ∧ ∃ t, step afterFR14 = .next t := ⟨witness_afterFR14_inv, _, rfl⟩
theorem witness_HiddenPayloadBytesAreNeverObserved :
    armed.SameToHost { armed with paybuf := [(0, 0xAA)], epoch := 7 } ∧
    ∃ t, exec (.rdpay 0) afterFA = .next t ∧ t.resp.getLsbD 8 = true :=
  ⟨⟨rfl, fun _ i hi => absurd hi (by simp [armed, State.reset, State.received]), fun h => by cases h⟩,
    ⟨_, rfl, by decide⟩⟩
theorem witness_ReceivingAFrameComputesValidate :
    afterFA.fsm ≠ .recv ∧ isFrame [0xDD, 0x03, 0x00, 0x01, 0x00, 0xFF, 0xFF, 0x77] :=
  ⟨by decide, by unfold isFrame; decide⟩
theorem witness_RxframeExpandsToStartAndBytes :
    State.reset.fsm ≠ .recv ∧ [(0xDD : Byte), 0x03].length < frameLen [0xDD, 0x03] + 7 ∧
    isFrame [0xDD, 0x03, 0x00, 0x00, 0x00, 0x00, 0x77] ∧ 1 ≤ [(0x00 : Byte)].length :=
  ⟨by decide, by decide, by unfold isFrame; decide, by decide⟩

end Sys2Proof.Tests
end

section
/-! Facts about the state's operations and the commands that the statements on the registers (10_state.md) share. -/

namespace Sys2Proof.Machine

/-- A field above the lowest part of a concatenation is a field of the rest, lower by that part's width. -/
theorem extractLsb'_append_above {v w start len : Nat} {hi : BitVec v} {lo : BitVec w} {x : BitVec len}
    (h : hi.extractLsb' start len = x) : (hi ++ lo).extractLsb' (start + w) len = x := by
  rw [BitVec.extractLsb'_append_eq_of_le (Nat.le_add_left w start), Nat.add_sub_cancel, h]

namespace State

/-- DONE is the level STATE == 2 (R41, R186). -/
theorem done_iff_code (s : State) : s.done = true ↔ s.fsm.code = 2 := by
  unfold State.done
  cases s.fsm <;> decide

/-- RDPAY's condition for a valid read (R116). -/
theorem payloadReadable_iff {s : State} {a : Byte} :
    s.payloadReadable a = true ↔ s.fsm = .done ∧ s.verdict = .ok ∧ a.toNat < s.len.toNat := by
  simp [State.payloadReadable, and_assoc]

/-! An accepted BYTE (R111 to R113). -/

theorem deliver_epoch (s : State) (b : Byte) : (s.deliver b).epoch = s.epoch := by
  by_cases hc : s.cnt.toNat = 6 + s.len.toNat
  · rw [deliver_last s b hc]; rfl
  · rw [deliver_more s b hc]; exact capture_epoch s _ b

/-- VERDICT is written by the last byte of a frame and by no other. -/
theorem deliver_verdict (s : State) (b : Byte) :
    (s.deliver b).verdict = if s.cnt.toNat = 6 + s.len.toNat
      then verdictOf s.errflag s.rxreg s.expreg s.rxchk (computedChecksum s.sum s.len) else s.verdict := by
  by_cases hc : s.cnt.toNat = 6 + s.len.toNat
  · rw [deliver_last s b hc, if_pos hc]; rfl
  · rw [deliver_more s b hc, if_neg hc]; exact capture_verdict s _ b

/-- The received payload bytes after an accepted BYTE are those before it and the one it stores (R29, R112). -/
theorem lt_received_of_deliver {s : State} {b : Byte} {i : Nat} (hi : i < (s.deliver b).received) :
    i < s.received ∨ (4 ≤ s.cnt.toNat ∧ s.cnt.toNat < 4 + s.len.toNat ∧ i = s.cnt.toNat - 4) := by
  have hcnt : (s.cnt + 1).toNat ≤ s.cnt.toNat + 1 := by rw [BitVec.toNat_add]; exact Nat.mod_le _ _
  simp only [received, Config.headerBytes, deliver_cnt, deliver_len] at hi ⊢
  split at hi <;> omega

/-- When the BYTE completes its frame, the whole payload has been received (R111). -/
theorem received_deliver_of_done {s : State} {b : Byte} (hs : s.fsm = .recv) (hdone : (s.deliver b).fsm = .done) :
    (s.deliver b).received = (s.deliver b).len.toNat := by
  have hlast : s.cnt.toNat = 6 + s.len.toNat := by
    by_contra hc
    rw [deliver_fsm, if_neg hc, hs] at hdone
    cases hdone
  have hcnt : (s.cnt + 1).toNat = s.cnt.toNat + 1 := by
    have := s.len.isLt
    rw [BitVec.toNat_add]
    exact Nat.mod_eq_of_lt (by simp; omega)
  simp only [received, Config.headerBytes, deliver_cnt, deliver_len, hcnt]
  split <;> omega

/-- CAPTURE reads neither RESP nor CAUSE. -/
theorem respond_capture (s : State) (c : Cause) (r : Word) (k : Nat) (b : Byte) :
    (s.respond c r).capture k b = (s.capture k b).respond c r := by
  unfold capture
  simp only [apply_ite (fun t : State => t.respond c r)]
  rfl

/-- An accepted BYTE reads neither RESP nor CAUSE. -/
theorem respond_deliver (s : State) (c : Cause) (r : Word) (b : Byte) :
    (s.respond c r).deliver b = (s.deliver b).respond c r := by
  by_cases hc : s.cnt.toNat = 6 + s.len.toNat
  · rw [deliver_last s b hc, deliver_last (s.respond c r) b hc]; rfl
  · rw [deliver_more s b hc, deliver_more (s.respond c r) b hc, respond_cnt, respond_capture]; rfl

end State

/-! RDPAY and RDREG, with their condition decided (R116, R117). -/

theorem exec_rdpay_readable {s : State} {a : Byte} (h : s.payloadReadable a = true) :
    exec (.rdpay a) s = .next (s.accept ((1#24) ++ s.payByte a.toNat)) := by simp [exec, execRdpay, h]

theorem exec_rdpay_hidden {s : State} {a : Byte} (h : ¬ s.payloadReadable a = true) :
    exec (.rdpay a) s = .next (s.accept 0) := by simp [exec, execRdpay, h]

theorem exec_rdreg_some {s : State} {a : Byte} {r : Word} (h : s.readReg a = some r) :
    exec (.rdreg a) s = .next (s.accept r) := by simp [exec, execRdreg, h]

theorem exec_rdreg_none {s : State} {a : Byte} (h : s.readReg a = none) :
    exec (.rdreg a) s = .next s.raiseIllegal := by simp [exec, execRdreg, h]

theorem exec_abort (s : State) : exec .abort s = .next (s.abandon.accept s.abandon.stat) := rfl

/-- Every command answers a next state (R73, R75). -/
theorem exec_total (i : Instr) (s : State) : ∃ t, exec i s = .next t := by
  obtain ⟨c, r, he, -⟩ | ⟨a, -, -, he⟩ | ⟨b, -, -, he⟩ | ⟨-, he⟩ := exec_cases i s
  all_goals exact ⟨_, he⟩

end Sys2Proof.Machine
end

section
/-! Hidden payload bytes: what the host cannot tell apart before a move, it cannot tell apart after it (R42). -/

namespace Sys2Proof.Machine

namespace State.SameToHost

/-- The state `t` is `s` with another PAYBUF and another `epoch`. -/
theorem exists_eq {s t : State} (h : s.SameToHost t) : ∃ p e, t = { s with paybuf := p, epoch := e } :=
  ⟨_, _, h.registers⟩

theorem fsm {s t : State} (h : s.SameToHost t) : t.fsm = s.fsm := by
  obtain ⟨p, e, rfl⟩ := h.exists_eq
  rfl

theorem host {s t : State} (h : s.SameToHost t) : t.host = s.host := by
  obtain ⟨p, e, rfl⟩ := h.exists_eq
  rfl

theorem stat {s t : State} (h : s.SameToHost t) : t.stat = s.stat := by
  obtain ⟨p, e, rfl⟩ := h.exists_eq
  rfl

theorem readReg {s t : State} (h : s.SameToHost t) (n : Byte) : t.readReg n = s.readReg n := by
  obtain ⟨p, e, rfl⟩ := h.exists_eq
  rfl

theorem payloadReadable {s t : State} (h : s.SameToHost t) (a : Byte) :
    t.payloadReadable a = s.payloadReadable a := by
  obtain ⟨p, e, rfl⟩ := h.exists_eq
  rfl

/-- A byte that a valid RDPAY returns is the same in both. -/
theorem payByte_of_readable {s t : State} (h : s.SameToHost t) {a : Byte} (ha : s.payloadReadable a = true) :
    s.payByte a.toNat = t.payByte a.toNat := by
  obtain ⟨hdone, hok, hlt⟩ := payloadReadable_iff.1 ha
  exact h.readable hdone hok _ hlt

/-! Each operation of the block keeps the relation. -/

theorem respond {s t : State} (h : s.SameToHost t) (c : Cause) (r : Word) :
    (s.respond c r).SameToHost (t.respond c r) := by
  obtain ⟨p, e, rfl⟩ := h.exists_eq
  exact ⟨rfl, h.receiving, h.readable⟩

/-- The response that most commands give. -/
theorem respond_stat {s t : State} (h : s.SameToHost t) (c : Cause) :
    (s.respond c s.stat).SameToHost (t.respond c t.stat) := by
  rw [h.stat]
  exact h.respond c s.stat

theorem withHost {s t : State} (h : s.SameToHost t) (l : List HostInput) :
    ({ s with host := l } : State).SameToHost { t with host := l } := by
  obtain ⟨p, e, rfl⟩ := h.exists_eq
  exact ⟨rfl, h.receiving, h.readable⟩

/-- After START no payload byte is received, so none need agree. -/
theorem arm {s t : State} (h : s.SameToHost t) (a : Byte) : (s.arm a).SameToHost (t.arm a) := by
  obtain ⟨p, e, rfl⟩ := h.exists_eq
  exact ⟨rfl, fun _ i hi => by simp [received] at hi, nofun⟩

theorem abandon {s t : State} (h : s.SameToHost t) : s.abandon.SameToHost t.abandon := by
  obtain ⟨p, e, rfl⟩ := h.exists_eq
  exact ⟨rfl, nofun, nofun⟩

theorem assertReset {s t : State} (h : s.SameToHost t) : s.assertReset.SameToHost t.assertReset := by
  obtain ⟨p, e, rfl⟩ := h.exists_eq
  exact ⟨rfl, nofun, nofun⟩

/-- An accepted BYTE writes the same payload byte into both, so the bytes received so far agree again; those of a
frame that this BYTE completes were all received before it. -/
theorem deliver {s t : State} (h : s.SameToHost t) (hs : s.fsm = .recv) (b : Byte) :
    (s.deliver b).SameToHost (t.deliver b) := by
  have hrec := h.receiving hs
  obtain ⟨p, e, rfl⟩ := h.exists_eq
  have agree : ∀ i, i < (s.deliver b).received →
      (s.deliver b).payByte i = (({ s with paybuf := p, epoch := e } : State).deliver b).payByte i := by
    intro i hi
    rw [deliver_payByte, deliver_payByte]
    split
    · rfl
    · next hnew => exact hrec i ((lt_received_of_deliver hi).resolve_right hnew)
  refine ⟨?_, fun _ => agree, fun hdone _ i hi => agree i ?_⟩
  · rw [deliver_epoch]
    exact deliver_with_paybuf s p e b
  · rwa [received_deliver_of_done hs hdone]

end State.SameToHost

/-- A command answers the same response, cause and registers in both. -/
theorem exec_sameToHost {s t : State} (h : s.SameToHost t) (i : Instr) :
    ∃ s' t', exec i s = .next s' ∧ exec i t = .next t' ∧ s'.SameToHost t' := by
  cases i with
  | nop => exact ⟨_, _, rfl, rfl, h.respond_stat _⟩
  | start a =>
    by_cases hs : s.fsm = .recv
    · exact ⟨_, _, exec_start_rejected s a hs, exec_start_rejected t a (h.fsm.trans hs), h.respond_stat _⟩
    · exact ⟨_, _, exec_start_armed s a hs, exec_start_armed t a (by rwa [h.fsm]), (h.arm a).respond_stat _⟩
  | byte b =>
    by_cases hs : s.fsm = .recv
    · exact ⟨_, _, exec_byte_delivered s b hs, exec_byte_delivered t b (h.fsm.trans hs),
        (h.deliver hs b).respond_stat _⟩
    · exact ⟨_, _, exec_byte_rejected s b hs, exec_byte_rejected t b (by rwa [h.fsm]), h.respond_stat _⟩
  | abort => exact ⟨_, _, exec_abort s, exec_abort t, h.abandon.respond_stat _⟩
  | rdpay a =>
    by_cases hr : s.payloadReadable a = true
    · refine ⟨_, _, exec_rdpay_readable hr, exec_rdpay_readable ((h.payloadReadable a).trans hr), ?_⟩
      rw [← h.payByte_of_readable hr]
      exact h.respond _ _
    · exact ⟨_, _, exec_rdpay_hidden hr, exec_rdpay_hidden (by rwa [h.payloadReadable]), h.respond _ _⟩
  | rdreg a =>
    cases hr : s.readReg a with
    | some r => exact ⟨_, _, exec_rdreg_some hr, exec_rdreg_some ((h.readReg a).trans hr), h.respond _ _⟩
    | none => exact ⟨_, _, exec_rdreg_none hr, exec_rdreg_none ((h.readReg a).trans hr), h.respond _ _⟩
  | ddate v => exact ⟨_, _, rfl, rfl, h.respond _ _⟩
  | dprot v => exact ⟨_, _, rfl, rfl, h.respond _ _⟩
  | dbal a v => exact ⟨_, _, rfl, rfl, h.respond _ _⟩
  | dcd v => exact ⟨_, _, rfl, rfl, h.respond _ _⟩

/-- A command word, legal or not, answers alike in both. -/
theorem runWord_sameToHost {s t : State} (h : s.SameToHost t) (w : Word) :
    ∃ s' t', runWord w s = .next s' ∧ runWord w t = .next t' ∧ s'.SameToHost t' := by
  cases hd : decode w with
  | command i =>
    rw [runWord_command s hd, runWord_command t hd]
    exact exec_sameToHost h i
  | illegal r =>
    have hill : ∀ i, decode w ≠ .command i := by simp [hd]
    exact ⟨_, _, runWord_illegal s hill, runWord_illegal t hill, h.respond .illegal 0⟩

/-- Every step answers alike in both: waiting, a command word, and reset. -/
theorem step_sameToHost {s t : State} (h : s.SameToHost t) :
    ∃ s' t', step s = .next s' ∧ step t = .next t' ∧ s'.SameToHost t' := by
  cases hh : s.host with
  | nil => exact ⟨s, t, step_nil hh, step_nil (h.host.trans hh), h⟩
  | cons m rest =>
    cases m with
    | command w =>
      rw [step_command hh, step_command (h.host.trans hh)]
      exact runWord_sameToHost (h.withHost rest) w
    | reset => exact ⟨_, _, step_reset hh, step_reset (h.host.trans hh), (h.withHost rest).assertReset⟩

/-- RDPAY answers RESP[8] = 1 only where the payload is readable at its index (R116). -/
theorem payloadReadable_of_resp {s t : State} {a : Byte} (he : exec (.rdpay a) s = .next t)
    (h8 : t.resp.getLsbD 8 = true) : s.payloadReadable a = true := by
  by_contra hr
  rw [exec_rdpay_hidden hr] at he
  cases he
  simp at h8

/-- Settles O45: `SameToHost` is kept by every step, and RESP[8] is 1 only on a readable index. -/
theorem hiddenPayloadBytesAreNeverObserved : Obligations.HiddenPayloadBytesAreNeverObserved :=
  ⟨fun _ _ h => step_sameToHost h,
    fun _ _ _ he h8 => State.payloadReadable_iff.1 (payloadReadable_of_resp he h8)⟩

end Sys2Proof.Machine
end

section
/-! Registers and their fields (10_state.md, R23, R24, R36 to R41). -/

namespace Sys2Proof.Machine

/-! The outputs RESP and CAUSE are read by no command. -/

/-- A command answers the same whatever RESP and CAUSE stood before it (R41). -/
theorem exec_respond (i : Instr) (s : State) (c : Cause) (r : Word) : exec i (s.respond c r) = exec i s := by
  cases i with
  | nop => rfl
  | start a =>
    by_cases hs : s.fsm = .recv
    · rw [exec_start_rejected s a hs, exec_start_rejected (s.respond c r) a hs]; rfl
    · rw [exec_start_armed s a hs, exec_start_armed (s.respond c r) a hs]; rfl
  | byte b =>
    by_cases hs : s.fsm = .recv
    · rw [exec_byte_delivered s b hs, exec_byte_delivered (s.respond c r) b hs, State.respond_deliver]; rfl
    · rw [exec_byte_rejected s b hs, exec_byte_rejected (s.respond c r) b hs]; rfl
  | abort => rfl
  | rdpay a => rfl
  | rdreg a =>
    cases hr : s.readReg a with
    | some q => rw [exec_rdreg_some hr, exec_rdreg_some (s := s.respond c r) hr]; rfl
    | none => rw [exec_rdreg_none hr, exec_rdreg_none (s := s.respond c r) hr]; rfl
  | ddate v => rfl
  | dprot v => rfl
  | dbal a v => rfl
  | dcd v => rfl

/-- Settles O13: no command reads RESP or CAUSE, and each answers a next state. -/
theorem outputsAreNoConditionCodes : Obligations.OutputsAreNoConditionCodes :=
  ⟨State.done_iff_code, fun i s r c => exec_respond i s c r, exec_total⟩

/-! The fields of the readable registers, each found by going down the concatenation that packs them. -/

namespace State

open BitVec (extractLsb'_append_eq_left extractLsb'_append_eq_right)

theorem stat_fields (s : State) :
    s.stat.extractLsb' 0 2 = s.fsm.code ∧ s.stat.extractLsb' 2 3 = s.verdict.code ∧ s.stat.extractLsb' 5 3 = 0 ∧
      s.stat.extractLsb' 8 8 = s.len ∧ s.stat.extractLsb' 16 8 = s.expreg ∧ s.stat.extractLsb' 24 8 = s.rxreg := by
  refine ⟨extractLsb'_append_eq_right, ?verdict, ?zero, ?len, ?expreg, ?rxreg⟩ <;>
    apply extractLsb'_append_above
  case verdict => exact extractLsb'_append_eq_right
  all_goals apply extractLsb'_append_above
  case zero => exact extractLsb'_append_eq_right
  all_goals apply extractLsb'_append_above
  case len => exact extractLsb'_append_eq_right
  all_goals apply extractLsb'_append_above
  case expreg => exact extractLsb'_append_eq_right
  case rxreg => exact extractLsb'_append_eq_left

theorem pos_fields (s : State) :
    s.pos.extractLsb' 0 9 = s.cnt ∧ s.pos.extractLsb' 9 7 = 0 ∧ s.pos.extractLsb' 16 8 = s.errflag ∧
      s.pos.extractLsb' 24 8 = s.sof :=
  ⟨extractLsb'_append_eq_right,
    extractLsb'_append_above extractLsb'_append_eq_right,
    extractLsb'_append_above (extractLsb'_append_above extractLsb'_append_eq_right),
    extractLsb'_append_above (extractLsb'_append_above extractLsb'_append_eq_left)⟩

theorem chks_fields (s : State) : s.chks.extractLsb' 16 16 = s.rxchk ∧ s.chks.extractLsb' 0 16 = s.calcchk :=
  ⟨extractLsb'_append_eq_left, extractLsb'_append_eq_right⟩

theorem acc_fields (s : State) :
    s.acc.extractLsb' 0 16 = s.sum ∧ s.acc.extractLsb' 16 8 = s.eof ∧ s.acc.extractLsb' 24 8 = 0 :=
  ⟨extractLsb'_append_eq_right,
    extractLsb'_append_above extractLsb'_append_eq_right,
    extractLsb'_append_above extractLsb'_append_eq_left⟩

end State

/-- Settles O14: the fields register by register; the values at reset are four closed words. -/
theorem statusRegistersShowTheirFields : Obligations.StatusRegistersShowTheirFields :=
  ⟨fun s => ⟨s.stat_fields, s.pos_fields, s.chks_fields, s.acc_fields⟩,
    by decide, by decide, by decide, by decide⟩

/-! The moves of STATE and VERDICT. -/

/-- A step that changes STATE or VERDICT is reset, ABORT, an accepted START, or the last byte of a frame, with the
values that move writes (R23, R24, R210). -/
theorem step_writes_state_or_verdict {s t : State} (h : step s = .next t)
    (hne : t.fsm ≠ s.fsm ∨ t.verdict ≠ s.verdict) :
    ∃ m rest, s.host = m :: rest ∧
      ((m = .reset ∧ t.fsm = .idle ∧ t.verdict = .none) ∨
       (∃ w, m = .command w ∧
         ((decode w = .command .abort ∧ t.fsm = .idle ∧ t.verdict = .none) ∨
          ((∃ a, decode w = .command (.start a)) ∧ s.fsm ≠ .recv ∧ t.fsm = .recv ∧ t.verdict = .none) ∨
          ((∃ b, decode w = .command (.byte b)) ∧ s.fsm = .recv ∧ s.cnt.toNat = 6 + s.len.toNat ∧
            t.fsm = .done ∧ t.verdict ≠ .none)))) := by
  obtain ⟨-, he⟩ | ⟨m, rest, hm, ⟨rfl, he⟩ | ⟨w, rfl, hw⟩⟩ := step_cases s
  · cases he.symm.trans h
    simp at hne
  · cases he.symm.trans h
    exact ⟨_, rest, hm, .inl ⟨rfl, rfl, rfl⟩⟩
  refine ⟨_, rest, hm, .inr ⟨w, rfl, ?_⟩⟩
  obtain ⟨c, r, he, -⟩ | ⟨a, hd, hs, he⟩ | ⟨b, hd, hs, he⟩ | ⟨hd, he⟩ := hw
  · cases he.symm.trans h
    simp at hne
  · cases he.symm.trans h
    exact .inr (.inl ⟨⟨a, hd⟩, hs, rfl, rfl⟩)
  · cases he.symm.trans h
    simp only [State.accept_fsm, State.accept_verdict, State.deliver_fsm, State.deliver_verdict] at hne ⊢
    by_cases hlast : s.cnt.toNat = 6 + s.len.toNat
    · simp only [if_pos hlast]
      exact .inr (.inr ⟨⟨b, hd⟩, hs, hlast, trivial, verdictOf_ne_none _ _ _ _ _⟩)
    · simp [if_neg hlast] at hne
  · cases he.symm.trans h
    exact .inl ⟨hd, rfl, rfl⟩

/-- Settles O15: each named command makes its move, and `step_writes_state_or_verdict` leaves no other. -/
theorem receiverStateMovesOnlyAsNamed : Obligations.ReceiverStateMovesOnlyAsNamed := by
  refine ⟨rfl, rfl, rfl, fun f => ?code, fun s t a h hs => ?start, fun s t b h hs hlast => ?last,
    fun s t h => ?abort, fun s t h hne => ?only⟩
  case code => cases f <;> decide
  case start => cases (exec_start_armed s a hs).symm.trans h; rfl
  case last =>
    cases (exec_byte_delivered s b hs).symm.trans h
    rw [State.accept_fsm, State.deliver_fsm, if_pos hlast]
  case abort => cases (exec_abort s).symm.trans h; rfl
  case only =>
    obtain ⟨m, rest, hm, ⟨hr, hf, -⟩ | ⟨w, hw, ⟨hd, hf, -⟩ | ⟨hd, hs, hf, -⟩ | ⟨hd, hs, hlast, hf, -⟩⟩⟩ :=
      step_writes_state_or_verdict h (.inl hne)
    · exact ⟨m, rest, hm, .inl ⟨hr, hf⟩⟩
    · exact ⟨m, rest, hm, .inr ⟨w, hw, .inl ⟨hd, hf⟩⟩⟩
    · exact ⟨m, rest, hm, .inr ⟨w, hw, .inr (.inl ⟨hd, hs, hf⟩)⟩⟩
    · exact ⟨m, rest, hm, .inr ⟨w, hw, .inr (.inr ⟨hd, hs, hlast, hf⟩)⟩⟩

/-- VERDICT is NONE exactly while no completed frame stands (R24). -/
theorem State.Inv.verdict_none_iff {s : State} (h : s.Inv) : s.verdict = .none ↔ s.fsm ≠ .done := by
  cases hs : s.fsm with
  | idle => simp [h.idle hs]
  | recv => simp [(h.recv hs).1]
  | done =>
    rw [(h.done hs).2]
    simp [verdictOf_ne_none]

/-- Settles O16: the codes, NONE outside DONE by the invariant, and `step_writes_state_or_verdict`. -/
theorem verdictIsWrittenOnlyAsNamed : Obligations.VerdictIsWrittenOnlyAsNamed := by
  refine ⟨rfl, rfl, rfl, rfl, rfl, fun v => ?code, fun s hi => hi.verdict_none_iff, fun s t h hne => ?only⟩
  case code => cases v <;> decide
  case only =>
    obtain ⟨m, rest, hm, ⟨hr, -, hv⟩ | ⟨w, hw, ⟨hd, -, hv⟩ | ⟨hd, hs, -, hv⟩ | ⟨hd, hs, hlast, -, hv⟩⟩⟩ :=
      step_writes_state_or_verdict h (.inr hne)
    · exact ⟨m, rest, hm, .inl ⟨hr, hv⟩⟩
    · exact ⟨m, rest, hm, .inr ⟨w, hw, .inl ⟨hd, hv⟩⟩⟩
    · exact ⟨m, rest, hm, .inr ⟨w, hw, .inr (.inl ⟨hd, hs, hv⟩)⟩⟩
    · exact ⟨m, rest, hm, .inr ⟨w, hw, .inr (.inr ⟨hd, hs, hlast, hv⟩)⟩⟩

/-! The words that write no register. -/

/-- A word other than START, BYTE and ABORT only responds (R40). -/
theorem runWord_only_responds {w : Word} (s : State) (hstart : ∀ a, decode w ≠ .command (.start a))
    (hbyte : ∀ b, decode w ≠ .command (.byte b)) (habort : decode w ≠ .command .abort) :
    ∃ c r, runWord w s = .next (s.respond c r) := by
  cases hd : decode w with
  | illegal q => exact ⟨.illegal, 0, runWord_illegal s (by simp [hd])⟩
  | command i =>
    rw [runWord_command s hd]
    obtain ⟨c, r, he, -⟩ | ⟨a, rfl, -⟩ | ⟨b, rfl, -⟩ | ⟨rfl, -⟩ := exec_cases i s
    · exact ⟨c, r, he⟩
    · exact absurd hd (hstart a)
    · exact absurd hd (hbyte b)
    · exact absurd hd habort

/-- BYTE keeps EXPREG, accepted or rejected (R25). -/
theorem exec_byte_expreg {s t : State} {b : Byte} (h : exec (.byte b) s = .next t) : t.expreg = s.expreg := by
  by_cases hs : s.fsm = .recv
  · cases (exec_byte_delivered s b hs).symm.trans h
    exact State.deliver_expreg s b
  · cases (exec_byte_rejected s b hs).symm.trans h
    rfl

/-- Settles O17: every other word only responds, and neither BYTE nor ABORT writes EXPREG. -/
theorem onlyStartByteAbortWriteRegisters : Obligations.OnlyStartByteAbortWriteRegisters := by
  refine ⟨fun w s t h hstart hbyte habort => ?other, fun a s ha => ?rdreg, fun b s t h => exec_byte_expreg h,
    fun s t h => ?abort⟩
  case other =>
    obtain ⟨c, r, he⟩ := runWord_only_responds s hstart hbyte habort
    cases he.symm.trans h
    rfl
  case rdreg => exact exec_rdreg_none (State.readReg_none.2 ha)
  case abort => cases (exec_abort s).symm.trans h; rfl

end Sys2Proof.Machine
end

section
/-! Read-only commands are idempotent; the others change state where accepted (20_memory.md, R57). -/

namespace Sys2Proof.Machine

/-- A command that only responds gives the same response again: it reads neither of the two outputs it wrote. -/
theorem exec_again_of_only_responds {i : Instr} {s : State} {c : Cause} {r : Word}
    (he : exec i s = .next (s.respond c r)) : exec i (s.respond c r) = .next (s.respond c r) := by
  rw [exec_respond, he]

/-- An accepted BYTE advances CNT, a 9-bit counter, to another value (R29, R111). -/
theorem State.deliver_cnt_ne (s : State) (b : Byte) : (s.deliver b).cnt ≠ s.cnt := by
  rw [State.deliver_cnt, add_ne_left]
  decide

/-- Settles O27: by `exec_cases` a command other than START, BYTE and ABORT only responds, so it repeats; the other
three each write STATE or CNT with a new value. -/
theorem readOnlyCommandsAreIdempotent : Obligations.ReadOnlyCommandsAreIdempotent := by
  refine ⟨fun i s hi => ?readOnly, fun s a hs => ?start, fun s b hs => ?byte, fun s hs => ?abort⟩
  case readOnly =>
    obtain ⟨c, r, he, -⟩ | ⟨a, rfl, -⟩ | ⟨b, rfl, -⟩ | ⟨rfl, -⟩ := exec_cases i s
    · exact ⟨s.respond c r, he, rfl, exec_again_of_only_responds he⟩
    all_goals exact hi.elim
  case start => exact ⟨_, exec_start_armed s a hs, Ne.symm hs⟩
  case byte => exact ⟨_, exec_byte_delivered s b hs, s.deliver_cnt_ne b⟩
  case abort => exact ⟨_, exec_abort s, Ne.symm hs⟩

end Sys2Proof.Machine
end

section
/-! The decoder, an equation for each command number (R73, R77), and the statements on it (30_encoding.md). -/

namespace Sys2Proof

section
variable {w : Word}

theorem decode_reservedField (hr : rsvField w ≠ 0) : decode w = .illegal .reservedField := if_neg hr

theorem decode_nop (hr : rsvField w = 0) (ho : opField w = 0x0) : decode w = .command .nop := by
  simp [decode, hr, ho]

theorem decode_start (hr : rsvField w = 0) (ho : opField w = 0x1) : decode w = .command (.start (aField w)) := by
  simp [decode, hr, ho]

theorem decode_byte (hr : rsvField w = 0) (ho : opField w = 0x2) : decode w = .command (.byte (aField w)) := by
  simp [decode, hr, ho]

theorem decode_abort (hr : rsvField w = 0) (ho : opField w = 0x3) : decode w = .command .abort := by
  simp [decode, hr, ho]

theorem decode_rdpay (hr : rsvField w = 0) (ho : opField w = 0x4) : decode w = .command (.rdpay (aField w)) := by
  simp [decode, hr, ho]

theorem decode_rdreg (hr : rsvField w = 0) (ho : opField w = 0x5) (ha : (aField w).toNat ≤ 3) :
    decode w = .command (.rdreg (aField w)) := by
  simp [decode, hr, ho, ha]

theorem decode_registerNumber (hr : rsvField w = 0) (ho : opField w = 0x5) (ha : 3 < (aField w).toNat) :
    decode w = .illegal .registerNumber := by
  simp [decode, hr, ho, ha]

theorem decode_ddate (hr : rsvField w = 0) (ho : opField w = 0x8) : decode w = .command (.ddate (vField w)) := by
  simp [decode, hr, ho]

theorem decode_dprot (hr : rsvField w = 0) (ho : opField w = 0x9) : decode w = .command (.dprot (vField w)) := by
  simp [decode, hr, ho]

theorem decode_dbal (hr : rsvField w = 0) (ho : opField w = 0xA) :
    decode w = .command (.dbal (aField w) (vField w)) := by
  simp [decode, hr, ho]

theorem decode_dcd (hr : rsvField w = 0) (ho : opField w = 0xB) : decode w = .command (.dcd (vField w)) := by
  simp [decode, hr, ho]

theorem decode_reservedOpcode (hr : rsvField w = 0)
    (ho : opField w ∈ ([0x6, 0x7, 0xC, 0xD, 0xE, 0xF] : List (BitVec 4))) :
    decode w = .illegal .reservedOpcode := by
  simp only [List.mem_cons, List.not_mem_nil, or_false] at ho
  obtain ho | ho | ho | ho | ho | ho := ho <;> simp [decode, hr, ho]

theorem ne_command_of_illegal {r : Reject} (h : decode w = .illegal r) (i : Instr) : decode w ≠ .command i := by
  simp [h]

end

/-- Settles O4: one equation of the decoder for each clause. -/
theorem dispatchFollowsTheOpcodeMap : Obligations.DispatchFollowsTheOpcodeMap := fun _ =>
  ⟨fun hr => ne_command_of_illegal (decode_reservedField hr), fun hr =>
    ⟨decode_nop hr, decode_start hr, decode_byte hr, decode_abort hr, decode_rdpay hr, decode_rdreg hr,
      fun ho ha => ne_command_of_illegal (decode_registerNumber hr ho ha),
      decode_ddate hr, decode_dprot hr, decode_dbal hr, decode_dcd hr,
      fun ho => ne_command_of_illegal (decode_reservedOpcode hr ho)⟩⟩

/-- The command numbers of R72 and the reserved ones make up all sixteen. -/
theorem opcode_assigned_or_reserved : ∀ op : BitVec 4,
    op ∈ ([0x0, 0x1, 0x2, 0x3, 0x4, 0x5, 0x8, 0x9, 0xA, 0xB] : List (BitVec 4)) ∨
      op ∈ ([0x6, 0x7, 0xC, 0xD, 0xE, 0xF] : List (BitVec 4)) := by
  decide

/-- The legal words are exactly those that decode (R73). -/
theorem decodes_iff_legal (w : Word) :
    (∃ i, decode w = .command i) ↔
      rsvField w = 0 ∧
      opField w ∈ ([0x0, 0x1, 0x2, 0x3, 0x4, 0x5, 0x8, 0x9, 0xA, 0xB] : List (BitVec 4)) ∧
      (opField w = 0x5 → (aField w).toNat ≤ 3) := by
  constructor
  · rintro ⟨i, hd⟩
    have legal : ∀ r, decode w ≠ .illegal r := by simp [hd]
    have hr : rsvField w = 0 := by
      by_contra hr
      exact legal _ (decode_reservedField hr)
    refine ⟨hr, (opcode_assigned_or_reserved _).resolve_right fun ho => legal _ (decode_reservedOpcode hr ho),
      fun ho => ?_⟩
    by_contra ha
    exact legal _ (decode_registerNumber hr ho (not_le.1 ha))
  · rintro ⟨hr, ho, ha⟩
    simp only [List.mem_cons, List.not_mem_nil, or_false] at ho
    obtain ho | ho | ho | ho | ho | ho | ho | ho | ho | ho := ho
    · exact ⟨_, decode_nop hr ho⟩
    · exact ⟨_, decode_start hr ho⟩
    · exact ⟨_, decode_byte hr ho⟩
    · exact ⟨_, decode_abort hr ho⟩
    · exact ⟨_, decode_rdpay hr ho⟩
    · exact ⟨_, decode_rdreg hr ho (ha ho)⟩
    · exact ⟨_, decode_ddate hr ho⟩
    · exact ⟨_, decode_dprot hr ho⟩
    · exact ⟨_, decode_dbal hr ho⟩
    · exact ⟨_, decode_dcd hr ho⟩

/-- Settles O3: `decodes_iff_legal`, and a word that decodes to no command raises ILLEGAL. -/
theorem legalWordsAndNoOthersDecode : Obligations.LegalWordsAndNoOthersDecode := fun w =>
  ⟨decodes_iff_legal w, fun h s => Machine.runWord_illegal s (not_exists.1 h)⟩

/-- Settles O5: seven closed words read and written; OP 0x6 is reserved, and 0x11030000 has RSV 1. -/
theorem workedEncodingsReadAndWrite : Obligations.WorkedEncodingsReadAndWrite := by
  refine ⟨by decide, by decide, by decide, by decide, by decide, by decide, by decide, by decide, by decide,
    by decide, by decide, by decide, by decide, by decide, ?reservedOp, ?reservedField⟩
  case reservedOp => exact ne_command_of_illegal (decode_reservedOpcode (by decide) (by decide))
  case reservedField => exact ne_command_of_illegal (decode_reservedField (by decide))

end Sys2Proof
end

section
/-! RXFRAME (R79): its words, the frame it completes, and the BYTEs after it. -/

namespace Sys2Proof.Machine

open Reference

/-- The assembler's OR writes a byte operand into A, where the base word has 0 (R78). -/
theorem packCommand_or_shift (op : BitVec 4) (a : Byte) (v : Half) :
    packCommand op 0 v ||| (BitVec.ofNat 32 a.toNat <<< 16) = packCommand op a v := by
  ext i hi
  simp only [packCommand, BitVec.ofNat_toNat]
  rw [← BitVec.getLsbD_eq_getElem, ← BitVec.getLsbD_eq_getElem]
  simp only [BitVec.getLsbD_or, BitVec.getLsbD_append, BitVec.getLsbD_shiftLeft, BitVec.getLsbD_setWidth]
  obtain h | h | h : i < 16 ∨ (16 ≤ i ∧ i < 24) ∨ 24 ≤ i := by omega
  · simp [h]
  · simp [hi, show ¬ i < 16 by omega, show i - 16 < 8 by omega, show i - 16 < 32 by omega]
  · simp [show ¬ i < 16 by omega, show ¬ i - 16 < 8 by omega, BitVec.getLsbD_of_ge a (i - 16) (by omega)]

namespace Assembler

theorem wordA_packCommand (op : BitVec 4) (a : Byte) :
    wordA (packCommand op 0 0) a.toNat = .ok (packCommand op a 0) := by
  rw [wordA, if_pos (Nat.le_of_lt_succ a.isLt), packCommand_or_shift]

theorem wordA_start (r : Byte) : wordA 0x10000000 r.toNat = .ok (encode (.start r)) := wordA_packCommand 0x1 r

theorem wordA_byte (b : Byte) : wordA 0x20000000 b.toNat = .ok (encode (.byte b)) := wordA_packCommand 0x2 b

theorem byteWords_eq (F : List Byte) :
    byteWords (F.map (fun b => b.toNat)) = .ok ((F.map Instr.byte).map encode) := by
  induction F with
  | nil => rfl
  | cons b F ih =>
    rw [List.map_cons, byteWords, wordA_byte, ih]
    rfl

theorem assembleLine_rxframe (r : Byte) (F : List Byte) :
    assembleLine (.rxframe r.toNat (F.map (fun b => b.toNat))) = .ok ((rxframe r F).map encode) := by
  rw [assembleLine, wordA_start, byteWords_eq]
  rfl

end Assembler

/-- The next BYTE of a list of them is at the head of the host's moves. -/
theorem issues_bytes_drop {F : List Byte} {k : Nat} (hk : k < F.length) (later : List HostInput) :
    issues ((F.drop k).map .byte) ++ later =
      .command (encode (.byte F[k])) :: (issues ((F.drop (k + 1)).map .byte) ++ later) := by
  rw [List.drop_eq_getElem_cons hk]
  rfl

/-- One byte before the end of a frame, the receiver has LEN from the frame and CNT at the stop byte (R111). -/
theorem Received.cnt_eq_last {r : Byte} {F : List Byte} {s : State} (g : Received r F (frameLen F + 6) s) :
    s.cnt.toNat = 6 + s.len.toNat := by
  rw [g.cnt, g.len, if_pos (by omega), Nat.add_comm]
  rfl

/-- START r and a whole frame, issued outside RECV, run to DONE (R111, R113). -/
theorem runs_frame_done (r : Byte) {F : List Byte} (hF : isFrame F) {s : State} (hs : s.fsm ≠ .recv)
    (later : List HostInput) :
    ∃ t, Runs (F.length + 1) { s with host := issues (rxframe r F) ++ later } t ∧ t.fsm = .done ∧
      t.host = later := by
  have hn : F.length = frameLen F + 6 + 1 := hF
  have hk : frameLen F + 6 < F.length := by omega
  obtain ⟨t, hrun, g, hh⟩ := runs_received r F s hs (frameLen F + 6) hk.le (by omega)
    (issues ((F.drop (frameLen F + 6)).map .byte) ++ later)
  rw [← issues_rxframe_split] at hrun
  rw [issues_bytes_drop hk, List.drop_eq_nil_of_le hn.le] at hh
  rw [hn]
  refine ⟨_, runs_add hrun (runs_succ (step_byte _ later hh g.fsm) (runs_zero _)), ?_, ?_⟩
  · rw [State.accept_fsm, State.deliver_fsm, if_pos (g.withHost later).cnt_eq_last]
  · rw [State.accept_host, State.deliver_host]

/-- BYTEs issued outside RECV are each REJECTED; all that stays of them is the last response (R182). -/
theorem runs_bytes_rejected {s : State} {F : List Byte} {later : List HostInput} (hs : s.fsm ≠ .recv)
    (hh : s.host = issues (F.map .byte) ++ later) {k : Nat} (h1 : 1 ≤ k) (hk : k ≤ F.length) :
    Runs k s { s.raiseRejected with host := issues ((F.drop k).map .byte) ++ later } := by
  induction k, h1 using Nat.le_induction with
  | base => exact runs_succ (step_byte_rejected _ _ (hh.trans (issues_bytes_drop hk later)) hs) (runs_zero _)
  | succ k h1 ih =>
    exact runs_add (ih (by omega)) (runs_succ (step_byte_rejected _ _ (issues_bytes_drop hk later) hs) (runs_zero _))

/-- Settles O47: the assembler's words by induction on the list; a short list is the prefix that `runs_received`
follows; after a whole frame the block is in DONE, where `runs_bytes_rejected` holds. -/
theorem rxframeExpandsToStartAndBytes : Obligations.RxframeExpandsToStartAndBytes := by
  refine ⟨Assembler.assembleLine_rxframe, fun s r F hs hshort => ?short, fun s r F extra later hs hF => ?long⟩
  case short =>
    obtain ⟨t, hrun, g, -⟩ := runs_received r F s hs F.length le_rfl hshort []
    rw [List.take_length, List.append_nil] at hrun
    exact ⟨t, hrun, g.fsm⟩
  case long =>
    have hmoves : issues (rxframe r (F ++ extra)) ++ later =
        issues (rxframe r F) ++ (issues (extra.map .byte) ++ later) := by
      simp [issues, rxframe]
    rw [hmoves]
    obtain ⟨t, hrun, hdone, hh⟩ := runs_frame_done r hF hs (issues (extra.map .byte) ++ later)
    refine ⟨t, hrun, hdone, fun k h1 hk => ⟨_, runs_add hrun (runs_bytes_rejected ?_ hh h1 hk), rfl, rfl⟩⟩
    rw [hdone]
    decide

end Sys2Proof.Machine
end

section
/-! CHECKSUM and VALIDATE over whole frames (40_frame_codec.md Part 1, R101 to R107). -/

namespace Sys2Proof.Machine

namespace Reference

/-! CHECKSUM (R101, R107). -/

/-- An integer cut to 32 bits and then to 16 is the integer cut to 16. -/
theorem setWidth_ofInt_32_16 (x : Int) : (BitVec.ofInt 32 x).setWidth 16 = BitVec.ofInt 16 x := by
  apply BitVec.eq_of_toNat_eq
  simp only [BitVec.toNat_setWidth, BitVec.toNat_ofInt]
  omega

/-- Truncation to 16 bits commutes with the complement (R101). -/
theorem checksum_eq_cut_after_xor (L : Nat) (S : List Byte) :
    checksum L S = (BitVec.ofInt 32 ((byteSum S : Int) + (L : Int) - 1) ^^^ 0xFFFF).setWidth 16 := by
  rw [BitVec.setWidth_xor, setWidth_ofInt_32_16]
  rfl

/-- The largest sum of L bytes plus L - 1 still fits 16 bits, so only the complement is left (R101). -/
theorem checksum_no_wrap {L : Nat} {S : List Byte} (hS : S.length = L) (h1 : 1 ≤ L) (h255 : L ≤ 255) :
    byteSum S + L - 1 ≤ 65279 ∧ (checksum L S).toNat = 65535 - (byteSum S + L - 1) := by
  have hsum := byteSum_le S
  rw [checksum_toNat]
  omega

/-- Settles O33: `checksum_toNat` is the negation form, `byteSum_le` rules out a wrap; the last two are closed. -/
theorem checksumNegatesTheSum : Obligations.ChecksumNegatesTheSum :=
  ⟨fun L S => ⟨rfl, checksum_eq_cut_after_xor L S, checksum_toNat L S⟩, fun _ _ => checksum_no_wrap,
    by decide, by decide⟩

/-- CHECKSUM reads the payload through its sum alone. -/
theorem checksum_congr {S T : List Byte} (L : Nat) (h : byteSum S = byteSum T) : checksum L S = checksum L T := by
  rw [checksum, checksum, h]

/-- Two bytes differ by less than 2^16, so another byte in a payload always shows in its CHECKSUM (R106). -/
theorem checksum_set_ne {S : List Byte} {i : Nat} {b : Byte} (L : Nat) (hi : i < S.length) (hb : b ≠ S[i]) :
    checksum L (S.set i b) ≠ checksum L S := by
  intro h
  have hcut := congrArg BitVec.toNat h
  rw [checksum_toNat, checksum_toNat] at hcut
  have hrep := byteSum_replace S i b hi
  have hne : b.toNat ≠ S[i].toNat := fun e => hb (BitVec.eq_of_toNat_eq e)
  omega

/-! Replacing one byte of a frame. -/

section
variable {F : List Byte} {i : Nat} (b : Byte)

theorem frameLen_set (hi : i ≠ 3) : frameLen (F.set i b) = frameLen F := by
  rw [frameLen, frameByte_set_ne F i 3 b hi]
  rfl

theorem isFrame_set (hF : isFrame F) (hi : i ≠ 3) : isFrame (F.set i b) := by
  rw [isFrame, List.length_set, frameLen_set b hi]
  exact hF

theorem framePayload_set_outside (hi : i < 3 ∨ 4 + frameLen F ≤ i) : framePayload (F.set i b) = framePayload F := by
  rw [framePayload, frameLen_set b (by omega)]
  exact stretch_set_outside F i b 4 (frameLen F) (by omega)

/-- The recomputed checksum covers the length byte and the payload only (R107). -/
theorem expectedChecksum_set_outside (hi : i < 3 ∨ 4 + frameLen F ≤ i) :
    expectedChecksum (F.set i b) = expectedChecksum F := by
  rw [expectedChecksum, frameLen_set b (by omega), framePayload_set_outside b hi]
  rfl

theorem framePayload_set_inside (h4 : 4 ≤ i) : framePayload (F.set i b) = (framePayload F).set (i - 4) b := by
  rw [framePayload, frameLen_set b (by omega), List.drop_set, if_neg (show ¬ i < Config.headerBytes from not_lt.2 h4),
    List.take_set]
  rfl

end

/-- Settles O35: CHECKSUM through the payload's sum, which a permutation keeps; then XOR by its algebra. -/
theorem checksumIgnoresOrderAndUncoveredBytes : Obligations.ChecksumIgnoresOrderAndUncoveredBytes :=
  ⟨fun L _ _ h => checksum_congr L (byteSum_perm h), fun _ _ b _ hi => expectedChecksum_set_outside b hi,
    fun x => by rw [BitVec.xor_assoc, BitVec.xor_self, BitVec.xor_zero]⟩

/-! The parts of a frame of F[3] + 7 bytes (R100). -/

theorem framePayload_length {F : List Byte} (hF : isFrame F) : (framePayload F).length = frameLen F := by
  have hn : F.length = frameLen F + 7 := hF
  simp only [framePayload, Config.headerBytes, List.length_take, List.length_drop]
  omega

theorem framePayload_eq_take {F : List Byte} (hF : isFrame F) : framePayload F = (F.drop 4).take (F.length - 7) := by
  have hn : F.length = frameLen F + 7 := hF
  rw [hn, Nat.add_sub_cancel]
  rfl

theorem frameChecksum_eq {F : List Byte} (hF : isFrame F) :
    frameChecksum F = frameByte F (4 + frameLen F) ++ frameByte F (5 + frameLen F) := by
  have hn : F.length = frameLen F + 7 := hF
  rw [frameChecksum, show F.length - 3 = 4 + frameLen F by omega, show F.length - 2 = 5 + frameLen F by omega]

theorem frameChecksum_set {F : List Byte} (hF : isFrame F) {i : Nat} (b : Byte) (h3 : i ≠ 3)
    (hhigh : i ≠ 4 + frameLen F) (hlow : i ≠ 5 + frameLen F) : frameChecksum (F.set i b) = frameChecksum F := by
  rw [frameChecksum_eq (isFrame_set b hF h3), frameLen_set b h3, frameByte_set_ne F i _ b hhigh,
    frameByte_set_ne F i _ b hlow, frameChecksum_eq hF]

/-- Byte i of a frame, i in its payload, is byte i - 4 of the payload. -/
theorem framePayload_getElem {F : List Byte} {i : Nat} (h4 : 4 ≤ i) (hi : i - 4 < (framePayload F).length) :
    (framePayload F)[i - 4] = frameByte F i := by
  simp only [framePayload, Config.headerBytes, List.getElem_take, List.getElem_drop, Nat.add_sub_cancel' h4]
  exact getElem_eq_frameByte _

/-! VALIDATE, a step at a time (R102, R104). -/

theorem validate_eq_none_iff {r : Byte} {F : List Byte} : validate r F = none ↔ ¬ isFrame F := by
  unfold validate isFrame
  split
  · simp [*]
  · rename_i hn
    simp only [not_ne_iff.1 hn, not_true_eq_false, iff_false]
    repeat' split
    all_goals exact Option.some_ne_none _

section
variable {r : Byte} {F : List Byte} (hF : isFrame F)
include hF

theorem validate_deviceError (h2 : frameByte F 2 ≠ 0) : validate r F = some .deviceError := by
  rw [validate, if_neg (not_ne_iff.2 hF), if_pos h2]

theorem validate_protocolMismatch (h2 : frameByte F 2 = 0) (h1 : frameByte F 1 ≠ r) :
    validate r F = some .protocolMismatch := by
  rw [validate, if_neg (not_ne_iff.2 hF), if_neg (not_ne_iff.2 h2), if_pos h1]

theorem validate_checksumError (h2 : frameByte F 2 = 0) (h1 : frameByte F 1 = r)
    (hc : frameChecksum F ≠ expectedChecksum F) : validate r F = some .checksumError := by
  rw [validate, if_neg (not_ne_iff.2 hF), if_neg (not_ne_iff.2 h2), if_neg (not_ne_iff.2 h1), if_pos hc]

theorem validate_ok (h2 : frameByte F 2 = 0) (h1 : frameByte F 1 = r) (hc : frameChecksum F = expectedChecksum F) :
    validate r F = some (.ok (framePayload F)) := by
  rw [validate, if_neg (not_ne_iff.2 hF), if_neg (not_ne_iff.2 h2), if_neg (not_ne_iff.2 h1),
    if_neg (not_ne_iff.2 hc)]

end

theorem validate_eq_ok {r : Byte} {F p : List Byte} (h : validate r F = some (.ok p)) :
    isFrame F ∧ frameByte F 2 = 0 ∧ frameByte F 1 = r ∧ frameChecksum F = expectedChecksum F := by
  have hF : isFrame F := by
    by_contra hF
    rw [validate_eq_none_iff.2 hF] at h
    cases h
  refine ⟨hF, ?_⟩
  by_cases h2 : frameByte F 2 = 0
  · by_cases h1 : frameByte F 1 = r
    · by_cases hc : frameChecksum F = expectedChecksum F
      · exact ⟨h2, h1, hc⟩
      · cases (validate_checksumError hF h2 h1 hc).symm.trans h
    · cases (validate_protocolMismatch hF h2 h1).symm.trans h
  · cases (validate_deviceError hF h2).symm.trans h

theorem Validation.verdict_eq_ok_iff (v : Validation) : v.verdict = .ok ↔ ∃ p, v = .ok p := by
  cases v <;> simp [Validation.verdict]

/-- Settles O34: the four steps of VALIDATE, with the payload written as the bytes between header and checksum. -/
theorem validateReportsTheFirstFailingStep : Obligations.ValidateReportsTheFirstFailingStep := by
  intro r F hF
  rw [← framePayload_eq_take hF]
  exact ⟨validate_deviceError hF, validate_protocolMismatch hF, validate_checksumError hF, validate_ok hF,
    fun v _ => v.verdict_eq_ok_iff⟩

/-- VALIDATE reads neither the first byte of a frame nor its last (R105). -/
theorem validate_set_end {r : Byte} {F : List Byte} (hF : isFrame F) {i : Nat} (b : Byte)
    (hi : i = 0 ∨ i = 6 + frameLen F) : validate r (F.set i b) = validate r F := by
  rw [validate, validate, List.length_set, frameLen_set b (by omega), frameByte_set_ne F i 2 b (by omega),
    frameByte_set_ne F i 1 b (by omega), frameChecksum_set hF b (by omega) (by omega) (by omega),
    expectedChecksum_set_outside b (by omega), framePayload_set_outside b (by omega)]

/-- Settles O36: VALIDATE's length check, its two unread bytes, and the invariant's sentence on DONE. -/
theorem validateIgnoresStartAndStopBytes : Obligations.ValidateIgnoresStartAndStopBytes := by
  refine ⟨fun r F => validate_eq_none_iff, fun r F b c hF => ?ends, fun s hI hs => (hI.done hs).1⟩
  case ends =>
    have hn : F.length = frameLen F + 7 := hF
    have hlen := frameLen_set (F := F) b (show 0 ≠ 3 by decide)
    rw [validate_set_end (isFrame_set b hF (by decide)) c (by omega), validate_set_end hF b (.inl rfl)]

/-- Settles O37: the first two steps and the received checksum do not see the payload; the recomputed checksum sees
every single change of it (`checksum_set_ne`). -/
theorem payloadMutationIsAChecksumError : Obligations.PayloadMutationIsAChecksumError := by
  intro r F p i b hv h4 hi hb
  obtain ⟨hF, h2, h1, hc⟩ := validate_eq_ok hv
  have hin : i - 4 < (framePayload F).length := by
    rw [framePayload_length hF]
    omega
  apply validate_checksumError (isFrame_set b hF (by omega))
  · rwa [frameByte_set_ne F i 2 b (by omega)]
  · rwa [frameByte_set_ne F i 1 b (by omega)]
  · rw [frameChecksum_set hF b (by omega) (by omega) (by omega), hc, expectedChecksum, expectedChecksum,
      frameLen_set b (by omega), framePayload_set_inside b h4]
    exact (checksum_set_ne _ hin (by rwa [framePayload_getElem h4])).symm

end Reference

end Sys2Proof.Machine
end

section
/-! The frame codec's commands (40_frame_codec.md Part 2, R110 to R118). -/

namespace Sys2Proof.Machine

namespace State

/-- STAT's low byte holds three zero bits, VERDICT and STATE (R36). -/
theorem stat_eq_append (s : State) :
    s.stat = s.rxreg ++ s.expreg ++ s.len ++ ((0#3) ++ s.verdict.code ++ s.fsm.code) := by
  simp only [State.stat, BitVec.append_assoc, BitVec.cast_eq]

/-- STAT after START (R110). -/
theorem arm_stat (s : State) (a : Byte) : (s.arm a).stat = (0#8) ++ a ++ (0x0001#16) := by
  rw [stat_eq_append, BitVec.append_assoc, BitVec.cast_eq]
  exact congrArg ((0#8) ++ a ++ ·)
    (show (0#8) ++ ((0#3) ++ Verdict.none.code ++ RxState.recv.code) = 0x0001#16 by decide)

/-- STAT after ABORT (R115). -/
theorem abandon_stat (s : State) : s.abandon.stat = s.rxreg ++ s.expreg ++ s.len ++ (0#8) := by
  rw [stat_eq_append]
  exact congrArg (s.rxreg ++ s.expreg ++ s.len ++ ·)
    (show (0#3) ++ Verdict.none.code ++ RxState.idle.code = 0#8 by decide)

/-- Outside DONE no payload index is readable (R62, R116). -/
theorem not_payloadReadable_of_fsm {s : State} (h : s.fsm ≠ .done) (i : Byte) : ¬ s.payloadReadable i = true :=
  fun hr => h (payloadReadable_iff.1 hr).1

theorem done_eq_false {s : State} (h : s.fsm ≠ .done) : s.done = false := by
  simp [done, h]

end State

/-- What START and ABORT leave of a completed frame: DONE low, every PAYBUF byte, and none of them readable. -/
theorem discarded_frame_hidden {s t : State} (ht : t.fsm ≠ .done) (hpay : ∀ k, t.payByte k = s.payByte k) :
    t.done = false ∧ (∀ k, t.payByte k = s.payByte k) ∧
      ∀ i, exec (.rdpay i) t = .next { t with resp := 0, cause := .accepted } :=
  ⟨State.done_eq_false ht, hpay, fun i => exec_rdpay_hidden (State.not_payloadReadable_of_fsm ht i)⟩

/-- Settles O18: NOP's meaning, the decoder's equations for OP 0, and STAT at reset. -/
theorem nopAnswersStat : Obligations.NopAnswersStat :=
  ⟨fun _ => rfl, fun _ ho hr => decode_nop hr ho, fun _ _ hr => ne_command_of_illegal (decode_reservedField hr), rfl⟩

/-- Settles O19: outside RECV the state `arm` makes, with its STAT written out; in RECV the bare response. -/
theorem startArmsTheReceiver : Obligations.StartArmsTheReceiver := by
  refine ⟨fun w ho hr => decode_start hr ho, fun s a hs => ⟨?next, fun t he => ?frame⟩, exec_start_rejected⟩
  case next =>
    rw [exec_start_armed s a hs, State.arm_stat]
    rfl
  case frame =>
    cases (exec_start_armed s a hs).symm.trans he
    exact discarded_frame_hidden nofun (s.arm_payByte a)

/-- Settles O23: the state `abandon` makes, with its STAT written out. -/
theorem abortDiscardsTheFrame : Obligations.AbortDiscardsTheFrame := by
  refine ⟨fun w ho hr => decode_abort hr ho, fun s => ⟨?next, fun t he => ?frame⟩⟩
  case next =>
    rw [exec_abort, State.abandon_stat]
    rfl
  case frame =>
    cases (exec_abort s).symm.trans he
    exact discarded_frame_hidden nofun s.abandon_payByte

/-- Settles O24: the two answers of RDPAY by `payloadReadable_iff`; no index is below 0, nor 255 below a byte. -/
theorem rdpayReadsOnlyAValidPayload : Obligations.RdpayReadsOnlyAValidPayload := by
  have hidden : ∀ (s : State) (a : Byte), ¬ (s.fsm = .done ∧ s.verdict = .ok ∧ a.toNat < s.len.toNat) →
      exec (.rdpay a) s = .next { s with resp := 0, cause := .accepted } :=
    fun s a h => exec_rdpay_hidden (mt State.payloadReadable_iff.1 h)
  refine ⟨fun w ho hr => decode_rdpay hr ho, fun s a => ⟨fun hs hv ha => ?readable, hidden s a⟩,
    fun s => hidden s 255 ?index255, fun s a h => hidden s a ?noPayload⟩
  case readable => exact exec_rdpay_readable (State.payloadReadable_iff.2 ⟨hs, hv, ha⟩)
  case index255 =>
    rintro ⟨-, -, hlt⟩
    have := s.len.isLt
    exact absurd hlt (by simp; omega)
  case noPayload =>
    rintro ⟨-, hok, hlt⟩
    obtain hlen | hv := h
    · rw [hlen] at hlt
      exact Nat.not_lt_zero _ hlt
    · exact hv hok

/-- Settles O26: the four registers by number; 4 and above names none, and as a word is illegal whatever its RSV. -/
theorem rdregAnswersTheNumberedRegister : Obligations.RdregAnswersTheNumberedRegister := by
  refine ⟨fun w ho hr ha => decode_rdreg hr ho ha, fun s => ⟨exec_rdreg_some rfl, exec_rdreg_some rfl,
    exec_rdreg_some rfl, exec_rdreg_some rfl, fun a ha => exec_rdreg_none (State.readReg_none.2 ha)⟩,
    fun w s ho ha => ?word⟩
  have illegal : ∃ r, decode w = .illegal r := by
    by_cases hr : rsvField w = 0
    · exact ⟨_, decode_registerNumber hr ho ha⟩
    · exact ⟨_, decode_reservedField hr⟩
  obtain ⟨r, hd⟩ := illegal
  exact runWord_illegal s (ne_command_of_illegal hd)

/-! An accepted BYTE, register by register (R111, R112). -/

namespace State

/-- What FINALIZE keeps, an accepted BYTE leaves as CAPTURE does. -/
theorem deliver_eq_capture {α : Type} (f : State → α) (s : State) (b : Byte) (hf : ∀ t : State, f t.finalize = f t) :
    f (s.deliver b) = f { s.capture s.cnt.toNat b with cnt := s.cnt + 1 } := by
  simp only [deliver]
  split
  · exact hf _
  · rfl

section
variable (s : State) (b : Byte)

theorem deliver_sof : (s.deliver b).sof = if s.cnt.toNat = 0 then b else s.sof :=
  (deliver_eq_capture sof s b fun _ => rfl).trans (s.capture_sof _ b)

theorem deliver_rxreg : (s.deliver b).rxreg = if s.cnt.toNat = 1 then b else s.rxreg :=
  (deliver_eq_capture rxreg s b fun _ => rfl).trans (s.capture_rxreg _ b)

theorem deliver_errflag : (s.deliver b).errflag = if s.cnt.toNat = 2 then b else s.errflag :=
  (deliver_eq_capture errflag s b fun _ => rfl).trans (s.capture_errflag _ b)

theorem deliver_sum : (s.deliver b).sum = if s.cnt.toNat = 3 then 0
    else if 4 ≤ s.cnt.toNat ∧ s.cnt.toNat < 4 + s.len.toNat then s.sum + b.setWidth 16 else s.sum :=
  (deliver_eq_capture sum s b fun _ => rfl).trans (s.capture_sum _ b)

theorem deliver_rxchk : (s.deliver b).rxchk =
    if 4 ≤ s.cnt.toNat ∧ s.cnt.toNat = 4 + s.len.toNat then b ++ s.rxchk.extractLsb' 0 8
    else if 4 ≤ s.cnt.toNat ∧ s.cnt.toNat = 5 + s.len.toNat then s.rxchk.extractLsb' 8 8 ++ b else s.rxchk :=
  (deliver_eq_capture rxchk s b fun _ => rfl).trans (s.capture_rxchk _ b)

theorem deliver_eof : (s.deliver b).eof = if 4 ≤ s.cnt.toNat ∧ 6 + s.len.toNat ≤ s.cnt.toNat then b else s.eof :=
  (deliver_eq_capture eof s b fun _ => rfl).trans (s.capture_eof _ b)

/-- The first checksum byte goes to the high half of RXCHK (R33). -/
theorem deliver_rxchk_high : (s.deliver b).rxchk.extractLsb' 8 8 =
    if 4 ≤ s.cnt.toNat ∧ s.cnt.toNat = 4 + s.len.toNat then b else s.rxchk.extractLsb' 8 8 := by
  rw [deliver_rxchk]
  split
  · exact (halves_of_append _ _).1
  · split
    · exact (halves_of_append _ _).1
    · rfl

/-- The second checksum byte goes to the low half of RXCHK (R33). -/
theorem deliver_rxchk_low : (s.deliver b).rxchk.extractLsb' 0 8 =
    if 4 ≤ s.cnt.toNat ∧ s.cnt.toNat = 5 + s.len.toNat then b else s.rxchk.extractLsb' 0 8 := by
  rw [deliver_rxchk]
  split
  · rw [(halves_of_append _ _).2, if_neg (by omega)]
  · split
    · exact (halves_of_append _ _).2
    · rfl

end

/-- SUM takes a payload byte exactly: it does not wrap (R32). -/
theorem Inv.deliver_sum_toNat {s : State} (h : s.Inv) (b : Byte) (h4 : 4 ≤ s.cnt.toNat)
    (hp : s.cnt.toNat < 4 + s.len.toNat) : (s.deliver b).sum.toNat = s.sum.toNat + b.toNat := by
  rw [deliver_sum, if_neg (by omega), if_pos ⟨h4, hp⟩, BitVec.toNat_add,
    BitVec.toNat_setWidth_of_le (by decide), Nat.mod_eq_of_lt (h.sum_no_wrap b h4 hp)]

end State

/-- Settles O20: an accepted BYTE register by register. -/
theorem byteStoresByFrameOffset : Obligations.ByteStoresByFrameOffset := by
  intro s b hs
  refine ⟨_, exec_byte_delivered s b hs, s.deliver_expreg b, s.deliver_host b, s.deliver_epoch b, s.deliver_sof b,
    s.deliver_rxreg b, s.deliver_errflag b, s.deliver_len b, s.deliver_sum b, s.deliver_rxchk_high b,
    s.deliver_rxchk_low b, fun hI => hI.deliver_sum_toNat b, fun h4 hlast => ?eofStored, fun hbefore => ?eofKept,
    s.deliver_payByte b⟩
  case eofStored => rw [State.accept_eof, State.deliver_eof, if_pos ⟨h4, hlast.ge⟩]
  case eofKept => rw [State.accept_eof, State.deliver_eof, if_neg (by omega)]

/-! FINALIZE's verdict, a check at a time (R113, R184). -/

section
variable {errflag rxreg expreg : Byte} {rxchk calcchk : Half}

theorem verdictOf_deviceError (h2 : errflag ≠ 0) :
    verdictOf errflag rxreg expreg rxchk calcchk = .deviceError := if_pos h2

theorem verdictOf_protocolMismatch (h2 : errflag = 0) (h1 : rxreg ≠ expreg) :
    verdictOf errflag rxreg expreg rxchk calcchk = .protocolMismatch := by
  rw [verdictOf, if_neg (not_ne_iff.2 h2), if_pos h1]

theorem verdictOf_checksumError (h2 : errflag = 0) (h1 : rxreg = expreg) (hc : rxchk ≠ calcchk) :
    verdictOf errflag rxreg expreg rxchk calcchk = .checksumError := by
  rw [verdictOf, if_neg (not_ne_iff.2 h2), if_neg (not_ne_iff.2 h1), if_pos hc]

theorem verdictOf_ok (h2 : errflag = 0) (h1 : rxreg = expreg) (hc : rxchk = calcchk) :
    verdictOf errflag rxreg expreg rxchk calcchk = .ok := by
  rw [verdictOf, if_neg (not_ne_iff.2 h2), if_neg (not_ne_iff.2 h1), if_neg (not_ne_iff.2 hc)]

end

/-- Settles O22: the stop byte stores EOF, counts and finalises; FINALIZE's checksum over the exact integers. -/
theorem stopByteComputesTheVerdict : Obligations.StopByteComputesTheVerdict := by
  intro s b hs hlast c
  have hc : computedChecksum s.sum s.len = c := computedChecksum_eq_ofInt s.sum s.len
  have hv : (s.deliver b).verdict = verdictOf s.errflag s.rxreg s.expreg s.rxchk c := by
    rw [State.deliver_verdict, if_pos hlast, hc]
  refine ⟨_, exec_byte_delivered s b hs, ?_, fun h2 => ?_, fun h2 h1 => ?_, fun h2 h1 h3 => ?_, fun h2 h1 h3 => ?_⟩
  · rw [State.deliver_last s b hlast, ← hc]
    rfl
  all_goals rw [State.accept_verdict, hv]
  · exact verdictOf_deviceError h2
  · exact verdictOf_protocolMismatch h2 h1
  · exact verdictOf_checksumError h2 h1 h3
  · exact verdictOf_ok h2 h1 h3

end Sys2Proof.Machine
end

section
/-! A whole frame received: the block computes VALIDATE (R114). -/

namespace Sys2Proof.Machine

open Reference

/-- The block's verdict over a frame's bytes is VALIDATE's (R102, R113, R183). -/
theorem exists_validate_verdict (r : Byte) {F : List Byte} (hF : isFrame F) :
    ∃ v, validate r F = some v ∧
      v.verdict = verdictOf (frameByte F 2) (frameByte F 1) r (frameChecksum F) (expectedChecksum F) := by
  by_cases h2 : frameByte F 2 = 0
  · by_cases h1 : frameByte F 1 = r
    · by_cases hc : frameChecksum F = expectedChecksum F
      · exact ⟨_, validate_ok hF h2 h1 hc, (verdictOf_ok h2 h1 hc).symm⟩
      · exact ⟨_, validate_checksumError hF h2 h1 hc, (verdictOf_checksumError h2 h1 hc).symm⟩
    · exact ⟨_, validate_protocolMismatch hF h2 h1, (verdictOf_protocolMismatch h2 h1).symm⟩
  · exact ⟨_, validate_deviceError hF h2, (verdictOf_deviceError h2).symm⟩

/-- The receiver after START r and all of the frame F (R113, R114). -/
structure Completed (r : Byte) (F : List Byte) (s : State) : Prop where
  cause : s.cause = .accepted
  fsm : s.fsm = .done
  verdict : s.verdict = verdictOf (frameByte F 2) (frameByte F 1) r (frameChecksum F) (expectedChecksum F)
  cnt : s.cnt.toNat = F.length
  expreg : s.expreg = r
  sof : s.sof = frameByte F 0
  rxreg : s.rxreg = frameByte F 1
  errflag : s.errflag = frameByte F 2
  len : s.len = frameByte F 3
  rxchk : s.rxchk = frameChecksum F
  eof : s.eof = frameByte F (F.length - 1)
  sum : s.sum.toNat = byteSum (framePayload F)
  calcchk : s.calcchk = expectedChecksum F
  pay : ∀ i, i < frameLen F → s.payByte i = frameByte F (4 + i)

/-- The stop byte completes the frame: FINALIZE over the registers of a frame received up to it. -/
theorem Received.completed {r : Byte} {F : List Byte} {s : State} (hF : isFrame F)
    (g : Received r F (frameLen F + 6) s) (w : Word) :
    Completed r F ((s.deliver (frameByte F (F.length - 1))).accept w) := by
  have hn : F.length = frameLen F + 7 := hF
  have hL : frameLen F < 256 := (frameByte F 3).isLt
  have hlen : s.len = frameByte F 3 := by rw [g.len, if_pos (by omega)]
  have hpayload : min (frameLen F + 6 - 4) (frameLen F) = frameLen F := by omega
  have hsum : s.sum.toNat = byteSum (framePayload F) := by rw [g.sum, hpayload]; rfl
  have hrxchk : s.rxchk = frameChecksum F := by
    rw [frameChecksum_eq hF]
    exact append_of_halves _ _ _ (g.chk_high (by omega)) (g.chk_low (by omega))
  have hcalc : computedChecksum s.sum s.len = expectedChecksum F := by
    rw [computedChecksum_eq_checksum _ _ _ hsum, hlen]
    rfl
  rw [State.deliver_last s _ g.cnt_eq_last]
  constructor
  case verdict =>
    simp only [State.accept_verdict, State.finalize_verdict]
    rw [g.errflag (by omega), g.rxreg (by omega), g.expreg, hrxchk, hcalc]
  case cnt =>
    simp only [State.accept_cnt, State.finalize_cnt]
    rw [BitVec.toNat_add, g.cnt, hn, show (1 : BitVec 9).toNat = 1 from rfl]
    omega
  case pay =>
    intro i hi
    exact g.pay i (by omega)
  case cause => rfl
  case fsm => rfl
  case eof => rfl
  case expreg => exact g.expreg
  case sof => exact g.sof (by omega)
  case rxreg => exact g.rxreg (by omega)
  case errflag => exact g.errflag (by omega)
  case len => exact hlen
  case rxchk => exact hrxchk
  case sum => exact hsum
  case calcchk => exact hcalc

/-- START r and the first k bytes of a frame, k below its length, taken from the moves that issue the whole frame. -/
theorem runs_frame_prefix (r : Byte) {F : List Byte} (hF : isFrame F) {s : State} (hs : s.fsm ≠ .recv) {k : Nat}
    (hk : k < F.length) (later : List HostInput) :
    ∃ t, Runs (k + 1) { s with host := issues (rxframe r F) ++ later } t ∧ Received r F k t ∧
      t.host = issues ((F.drop k).map .byte) ++ later := by
  have hn : F.length = frameLen F + 7 := hF
  rw [issues_rxframe_split r F k]
  exact runs_received r F s hs k hk.le (by omega) _

/-- START r and a whole frame, issued outside RECV, run to the completed frame (R114). -/
theorem runs_frame_completed (r : Byte) {F : List Byte} (hF : isFrame F) {s : State} (hs : s.fsm ≠ .recv)
    (later : List HostInput) :
    ∃ t, Runs (F.length + 1) { s with host := issues (rxframe r F) ++ later } t ∧ Completed r F t ∧
      t.host = later := by
  have hn : F.length = frameLen F + 6 + 1 := hF
  have hk : frameLen F + 6 < F.length := by omega
  obtain ⟨t, hrun, g, hh⟩ := runs_frame_prefix r hF hs hk later
  have hlast : F[frameLen F + 6] = frameByte F (F.length - 1) := by
    rw [getElem_eq_frameByte, hn, Nat.add_sub_cancel]
  rw [issues_bytes_drop hk, List.drop_eq_nil_of_le hn.le, hlast] at hh
  have hrun' := runs_add hrun (runs_succ (step_byte _ later hh g.fsm) (runs_zero _))
  rw [← hn] at hrun'
  exact ⟨_, hrun', (g.withHost later).completed hF _, State.deliver_host _ _⟩

/-- Settles O46: `runs_frame_prefix` follows the bytes before the last, `Received.completed` the last, and
`exists_validate_verdict` compares the block's verdict with VALIDATE's. -/
theorem receivingAFrameComputesValidate : Obligations.ReceivingAFrameComputesValidate := by
  intro s r F later hs hF
  refine ⟨fun k hk => ?beforeLast, ?afterLast⟩
  case beforeLast =>
    obtain ⟨t, hrun, g, -⟩ := runs_frame_prefix r hF hs hk later
    exact ⟨t, hrun, g.cause, g.fsm⟩
  case afterLast =>
    obtain ⟨t, hrun, g, hh⟩ := runs_frame_completed r hF hs later
    obtain ⟨v, hv, hverdict⟩ := exists_validate_verdict r hF
    exact ⟨t, v, hrun, g.cause, g.fsm, hv, g.verdict.trans hverdict.symm, g.cnt, g.expreg, g.sof, g.rxreg, g.errflag,
      g.len, g.rxchk, g.eof, g.sum, g.calcchk, g.pay, hh⟩

end Sys2Proof.Machine
end

section
/-! The bit-field decoders (41_bitfield.md): each command's response in full, and the statements on them. -/

namespace Sys2Proof.Machine

open Reference

/-! A decoder accepts in every state, with a response made from its operands alone (R151). -/

section
variable (s : State) (v : Half)

theorem exec_ddate : exec (.ddate v) s = .next (s.accept (dateResponse v)) := rfl

theorem exec_dprot : exec (.dprot v) s = .next (s.accept (protResponse v)) := rfl

theorem exec_dbal (n : Byte) : exec (.dbal n v) s = .next (s.accept (balResponse n v)) := rfl

theorem exec_dcd : exec (.dcd v) s = .next (s.accept (chargeResponse v)) := rfl

end

/-- Settles O28: the four responses name no state. -/
theorem decodersAreCombinational : Obligations.DecodersAreCombinational := by
  intro i hi
  cases i with
  | ddate v => exact ⟨dateResponse v, fun s => exec_ddate s v⟩
  | dprot v => exact ⟨protResponse v, fun s => exec_dprot s v⟩
  | dbal n v => exact ⟨balResponse n v, fun s => exec_dbal s v n⟩
  | dcd v => exact ⟨chargeResponse v, fun s => exec_dcd s v⟩
  | nop | start | byte | abort | rdpay | rdreg => exact hi.elim

/-! DDATE (R152, R153). -/

section
open BitVec (extractLsb'_append_eq_left extractLsb'_append_eq_right)

/-- The fields of DDATE's response, each found by going down the concatenation that packs them. -/
theorem dateResponse_fields (v : Half) :
    (dateResponse v).extractLsb' 16 16 = 2000#16 + (v.extractLsb' 9 7).setWidth 16 ∧
      (dateResponse v).extractLsb' 12 4 = 0 ∧ (dateResponse v).extractLsb' 8 4 = v.extractLsb' 5 4 ∧
      (dateResponse v).extractLsb' 5 3 = 0 ∧ (dateResponse v).extractLsb' 0 5 = v.extractLsb' 0 5 := by
  refine ⟨?year, ?zero, ?month, ?gap, extractLsb'_append_eq_right⟩ <;> apply extractLsb'_append_above
  case gap => exact extractLsb'_append_eq_right
  all_goals apply extractLsb'_append_above
  case month => exact extractLsb'_append_eq_right
  all_goals apply extractLsb'_append_above
  case zero => exact extractLsb'_append_eq_right
  case year => exact extractLsb'_append_eq_left

end

/-- A field of a bit vector in exact arithmetic. -/
theorem toNat_extractLsb'_eq_div_mod {w : Nat} (x : BitVec w) (start len : Nat) :
    (x.extractLsb' start len).toNat = x.toNat / 2 ^ start % 2 ^ len := by
  rw [BitVec.extractLsb'_toNat, Nat.shiftRight_eq_div_pow]

/-- The year never overflows: V[15:9] is at most 127 (R153). -/
theorem year_toNat (v : Half) :
    (2000#16 + (v.extractLsb' 9 7).setWidth 16).toNat = 2000 + v.toNat / 512 := by
  have hv := v.isLt
  rw [BitVec.toNat_add, BitVec.toNat_setWidth_of_le (by decide), toNat_extractLsb'_eq_div_mod, BitVec.toNat_ofNat]
  omega

/-- decodeDate's three formulas in exact arithmetic (R152). -/
theorem decodeDate_eq_div_mod (v : Half) :
    decodeDate v =
      { year := 2000 + v.toNat / 512, month := v.toNat / 32 % 16, day := v.toNat % 32 } := by
  have hmonth : ((v >>> 5) &&& 0xF).toNat = v.toNat / 32 % 16 := by
    rw [BitVec.toNat_and, BitVec.toNat_ushiftRight, Nat.shiftRight_eq_div_pow]
    exact Nat.and_two_pow_sub_one_eq_mod _ 4
  have hday : (v &&& 0x1F).toNat = v.toNat % 32 := by
    rw [BitVec.toNat_and]
    exact Nat.and_two_pow_sub_one_eq_mod _ 5
  rw [decodeDate, hmonth, hday, BitVec.toNat_ushiftRight, Nat.shiftRight_eq_div_pow]

/-- Settles O29: both sides in exact arithmetic, the response field by field. -/
theorem ddateUnpacksYearMonthDay : Obligations.DdateUnpacksYearMonthDay := by
  intro v s
  obtain ⟨hyear, hzero, hmonth, hgap, hday⟩ := dateResponse_fields v
  have year : ((dateResponse v).extractLsb' 16 16).toNat = 2000 + v.toNat / 512 := by rw [hyear, year_toNat]
  have month : ((dateResponse v).extractLsb' 8 4).toNat = v.toNat / 32 % 16 := by
    rw [hmonth]
    exact toNat_extractLsb'_eq_div_mod v 5 4
  have day : ((dateResponse v).extractLsb' 0 5).toNat = v.toNat % 32 := by
    simp [hday]
  exact ⟨_, exec_ddate s v, year, month, day, hzero, hgap, by rw [decodeDate_eq_div_mod, year, month, day]⟩

/-! DPROT and DCD answer the low bits of V, extended with zeros (R155, R161). -/

/-- The bits of the `m` lowest bits of a value, extended with zeros. -/
theorem getLsbD_setWidth_extractLsb'_zero {w m n : Nat} (h : m ≤ n) (x : BitVec w) (k : Nat) :
    ((x.extractLsb' 0 m).setWidth n).getLsbD k = (decide (k < m) && x.getLsbD k) := by
  rw [BitVec.getLsbD_setWidth, BitVec.getLsbD_extractLsb', Nat.zero_add]
  by_cases hk : k < m
  · simp [hk, hk.trans_le h]
  · simp [hk]

/-- A zero-extended value has only zeros above its own width. -/
theorem extractLsb'_setWidth_above {w n start len : Nat} (h : w ≤ start) (x : BitVec w) :
    (x.setWidth n).extractLsb' start len = 0#len := by
  ext i hi
  rw [BitVec.getElem_extractLsb', BitVec.getLsbD_setWidth, BitVec.getLsbD_of_ge x _ (h.trans (Nat.le_add_right _ _))]
  simp

theorem protResponse_getLsbD (v : Half) (k : Nat) :
    (protResponse v).getLsbD k = (decide (k ≤ 12) && v.getLsbD k) := by
  rw [protResponse, getLsbD_setWidth_extractLsb'_zero (by decide), decide_eq_decide.2 Nat.lt_succ_iff]

namespace Reference

theorem ProtectionState.mem_all (p : ProtectionState) : p ∈ ProtectionState.all := by
  cases p <;> decide

theorem ProtectionState.bit_le (p : ProtectionState) : p.bit ≤ 12 := by
  cases p <;> decide

/-- A member is active exactly when its bit of the operand is set (R155). -/
theorem mem_decodeProtectionStates {v : Half} {p : ProtectionState} :
    p ∈ decodeProtectionStates v ↔ v.getLsbD p.bit = true := by
  rw [decodeProtectionStates, List.mem_filter, and_iff_right p.mem_all]

end Reference

/-- Settles O30: the response bit by bit; every member's bit is among those it shows, and it reads no other. -/
theorem dprotAnswersTheActiveSet : Obligations.DprotAnswersTheActiveSet := by
  refine ⟨fun v s => ⟨_, exec_dprot s v, protResponse_getLsbD v, fun p => ?member⟩, fun v v' s h => ?agree⟩
  case member =>
    rw [mem_decodeProtectionStates, protResponse_getLsbD, decide_eq_true p.bit_le, Bool.true_and]
  case agree => rw [exec_dprot, exec_dprot, protResponse, protResponse, h]

/-- The two flags side by side are V's two lowest bits. -/
theorem chargeResponse_eq (v : Half) : chargeResponse v = (v.extractLsb' 0 2).setWidth 32 :=
  congrArg (BitVec.setWidth 32) (BitVec.extractLsb'_append_extractLsb'_eq_extractLsb' rfl)

theorem chargeResponse_getLsbD (v : Half) (k : Nat) :
    (chargeResponse v).getLsbD k = (decide (k < 2) && v.getLsbD k) := by
  rw [chargeResponse_eq, getLsbD_setWidth_extractLsb'_zero (by decide)]

/-- Settles O32: RESP is V's two lowest bits and nothing else of V. -/
theorem dcdAnswersTheTwoFlags : Obligations.DcdAnswersTheTwoFlags := by
  refine ⟨fun v s => ?flags, fun v v' s h => ?agree⟩
  case flags =>
    have bit0 : (chargeResponse v).getLsbD 0 = v.getLsbD 0 := chargeResponse_getLsbD v 0
    have bit1 : (chargeResponse v).getLsbD 1 = v.getLsbD 1 := chargeResponse_getLsbD v 1
    exact ⟨_, exec_dcd s v, bit0, bit1, bit0, bit1, extractLsb'_setWidth_above le_rfl _⟩
  case agree => rw [exec_dcd, exec_dcd, chargeResponse_eq, chargeResponse_eq, h]

/-! DBAL (R158 to R160). -/

/-- The mask's bits, inside the 16 of the operand: V AND (2^m - 1) keeps those below m = min(n, 16). -/
theorem balMask_getLsbD {n i : Nat} (hi : i < 16) :
    (BitVec.ofNat 16 (2 ^ min n 16 - 1)).getLsbD i = decide (i < n) := by
  rw [BitVec.getLsbD_ofNat, Nat.testBit_two_pow_sub_one, decide_eq_true hi, Bool.true_and]
  exact decide_eq_decide.2 (by omega)

theorem balResponse_getLsbD (n : Byte) (v : Half) {i : Nat} (hi : i < 16) :
    (balResponse n v).getLsbD i = (decide (i < n.toNat) && v.getLsbD i) := by
  rw [balResponse, BitVec.getLsbD_setWidth, decide_eq_true (by omega), Bool.true_and, BitVec.getLsbD_append,
    if_pos hi, BitVec.getLsbD_and, balMask_getLsbD hi, Bool.and_comm]

/-- RESP[23:16] is the cell count and RESP[31:24] is 0. -/
theorem balResponse_fields (n : Byte) (v : Half) :
    (balResponse n v).extractLsb' 16 8 = n ∧ (balResponse n v).extractLsb' 24 8 = 0 :=
  ⟨(BitVec.extractLsb'_setWidth_of_le (by decide)).trans BitVec.extractLsb'_append_eq_left,
    extractLsb'_setWidth_above le_rfl _⟩

/-- With no cell the mask is empty and so is the response (R160). -/
theorem balResponse_zero (v : Half) : balResponse 0 v = 0 := by
  have hmask : BitVec.ofNat 16 (2 ^ min (0 : Byte).toNat 16 - 1) = 0#16 := by decide
  rw [balResponse, hmask, BitVec.and_zero]
  decide

namespace Reference

theorem decodeBalanceStates_length (v : Half) (n : Byte) : (decodeBalanceStates v n).length = n.toNat := by
  rw [decodeBalanceStates, List.length_map, List.length_range]

theorem decodeBalanceStates_getElem? (v : Half) (n : Byte) {i : Nat} (hi : i < n.toNat) :
    (decodeBalanceStates v n)[i]? = some (decide (i < 16) && v.getLsbD i) := by
  rw [decodeBalanceStates, List.getElem?_map, List.getElem?_range hi, Option.map_some]

end Reference

/-- Settles O31: for a cell of the list, on either side of 16, the response's bit and the operand's are the same. -/
theorem dbalAnswersTheBalanceList : Obligations.DbalAnswersTheBalanceList := by
  intro v n s
  obtain ⟨hcount, hzero⟩ := balResponse_fields n v
  refine ⟨_, exec_dbal s v n, hcount, hzero, fun i => balResponse_getLsbD n v, decodeBalanceStates_length v n,
    fun i hi => ?element, fun hn => ?noCell⟩
  case element =>
    rw [decodeBalanceStates_getElem? v n hi]
    by_cases h16 : i < 16
    · rw [balResponse_getLsbD n v h16, decide_eq_true hi, Bool.true_and]
    · rw [decide_eq_false h16, Bool.false_and, Bool.false_and]
  case noCell => rw [hn, balResponse_zero]

end Sys2Proof.Machine
end

section
/-! Outcomes and exceptions (60_exceptions.md, R180 to R187). -/

namespace Sys2Proof

/-- The three forms of an illegal word (R73, R181). -/
theorem ne_command_of_illegal_fields {w : Word}
    (h : rsvField w ≠ 0 ∨ opField w ∈ ([0x6, 0x7, 0xC, 0xD, 0xE, 0xF] : List (BitVec 4)) ∨
      (opField w = 0x5 ∧ 4 ≤ (aField w).toNat)) (i : Instr) : decode w ≠ .command i := by
  by_cases hr : rsvField w = 0
  · obtain hne | ho | ⟨ho, ha⟩ := h
    · exact absurd hr hne
    · exact ne_command_of_illegal (decode_reservedOpcode hr ho) i
    · exact ne_command_of_illegal (decode_registerNumber hr ho ha) i
  · exact ne_command_of_illegal (decode_reservedField hr) i

namespace Machine

/-- Settles O9: an illegal word raises ILLEGAL, which writes RESP and CAUSE alone. -/
theorem illegalWordChangesOnlyTheResponse : Obligations.IllegalWordChangesOnlyTheResponse := by
  intro s w rest hh hw
  have hstep : step s = .next ({ s with host := rest } : State).raiseIllegal :=
    (step_command hh).trans (runWord_illegal _ (ne_command_of_illegal_fields hw))
  refine ⟨hstep, rfl, fun t ht => ?_⟩
  cases hstep.symm.trans ht
  exact ⟨rfl, fun _ => rfl⟩

/-- Settles O10: the two commands with a state check, with the check failing. -/
theorem rejectedCommandChangesOnlyTheResponse : Obligations.RejectedCommandChangesOnlyTheResponse := by
  refine fun s a => ⟨exec_start_rejected s a, fun hs => exec_byte_rejected s a ?notRecv, rfl⟩
  obtain hs | hs := hs <;> simp [hs]

/-! The CAUSE of a command word (R180). -/

/-- The word is a legal command that the current STATE does not allow: START in RECV, or BYTE outside it (R182). -/
def NotAllowed (w : Word) (s : State) : Prop :=
  (s.fsm = .recv ∧ ∃ a, decode w = .command (.start a)) ∨ (s.fsm ≠ .recv ∧ ∃ b, decode w = .command (.byte b))

/-- A command word is illegal, rejected or accepted, and CAUSE says which (R180, R187). -/
theorem runWord_cause (w : Word) (s : State) :
    ∃ t, runWord w s = .next t ∧
      ((t.cause = .illegal ∧ ∀ i, decode w ≠ .command i) ∨
       (∃ i, decode w = .command i) ∧
        ((t.cause = .rejected ∧ NotAllowed w s) ∨ (t.cause = .accepted ∧ ¬ NotAllowed w s))) := by
  cases hd : decode w with
  | illegal q =>
    have hill : ∀ i, decode w ≠ .command i := ne_command_of_illegal hd
    exact ⟨_, runWord_illegal s hill, .inl ⟨rfl, by simp⟩⟩
  | command i =>
    rw [runWord_command s hd]
    simp only [NotAllowed, hd, Decoded.command.injEq]
    obtain ⟨c, r, he, -, hacc, hill, hrej⟩ | ⟨a, rfl, hs, he⟩ | ⟨b, rfl, hs, he⟩ | ⟨rfl, he⟩ := exec_cases i s
    · refine ⟨_, he, .inr ⟨⟨i, rfl⟩, ?_⟩⟩
      cases c with
      | accepted =>
        obtain ⟨hstart, hbyte⟩ := hacc rfl
        exact .inr ⟨rfl, by simp [hstart, hbyte]⟩
      | illegal => exact absurd (wellFormed_of_decode hd) (by simp [hill rfl])
      | rejected => exact .inl ⟨rfl, hrej rfl⟩
    all_goals exact ⟨_, he, .inr ⟨⟨_, rfl⟩, .inr ⟨rfl, by simp [*]⟩⟩⟩

/-- Settles O11: the three outcomes of `runWord_cause`, each with its own code. -/
theorem everyCommandReturnsItsCause : Obligations.EveryCommandReturnsItsCause := by
  intro w s
  obtain ⟨t, he, hc⟩ := runWord_cause w s
  refine ⟨t, he, ?_⟩
  rw [← not_exists, ← not_or]
  change _ ∧ (_ ↔ NotAllowed w s) ∧ (_ ↔ _ ∧ ¬ NotAllowed w s) ∧ _
  obtain ⟨hc, hill⟩ | ⟨hlegal, ⟨hc, hna⟩ | ⟨hc, hna⟩⟩ := hc
  · have hna : ¬ NotAllowed w s := by simp [NotAllowed, hill]
    simp [hc, Cause.code, hill, hna]
  · simp [hc, Cause.code, hlegal, hna]
  · simp [hc, Cause.code, hlegal, hna]

/-- A command word that writes a frame verdict is a BYTE, accepted in RECV (R113, R187). -/
theorem runWord_writes_verdict {w : Word} {s t : State} (h : runWord w s = .next t) (hne : t.verdict ≠ s.verdict)
    (hnone : t.verdict ≠ .none) : t.cause = .accepted ∧ s.fsm = .recv ∧ ∃ b, decode w = .command (.byte b) := by
  cases hd : decode w with
  | illegal q =>
    cases (runWord_illegal s (ne_command_of_illegal hd)).symm.trans h
    exact absurd rfl hne
  | command i =>
    rw [runWord_command s hd] at h
    obtain ⟨c, r, he, -⟩ | ⟨a, -, -, he⟩ | ⟨b, rfl, hs, he⟩ | ⟨-, he⟩ := exec_cases i s <;> cases he.symm.trans h
    · exact absurd rfl hne
    · exact absurd rfl hnone
    · exact ⟨rfl, hs, b, rfl⟩
    · exact absurd rfl hnone

/-- Settles O12: a word that decodes to no command raises ILLEGAL whatever the state; then `runWord_writes_verdict`. -/
theorem illegalCheckComesFirst : Obligations.IllegalCheckComesFirst := by
  refine fun w s t h => ⟨fun hill => ?illegal, fun hne hnone => ?verdict⟩
  case illegal =>
    cases (runWord_illegal s hill).symm.trans h
    rfl
  case verdict =>
    obtain ⟨hc, hs, hb⟩ := runWord_writes_verdict h hne hnone
    exact ⟨by rw [hc]; rfl, hs, hb⟩

/-! The level DONE (R186). -/

namespace State

theorem done_iff_fsm (s : State) : s.done = true ↔ s.fsm = .done := by simp [done]

theorem done_false_iff_fsm (s : State) : s.done = false ↔ s.fsm ≠ .done := by simp [done]

end State

/-- A step that takes a legal word executes its command, with the move consumed (R14, R77). -/
theorem step_of_decode {s : State} {w : Word} {rest : List HostInput} {i : Instr} (hh : s.host = .command w :: rest)
    (hd : decode w = .command i) : step s = exec i { s with host := rest } :=
  (step_command hh).trans (runWord_command _ hd)

/-- The last byte of a frame leaves DONE, whatever the verdict (R111, R113). -/
theorem exec_last_byte_fsm {s t : State} {b : Byte} (h : exec (.byte b) s = .next t) (hs : s.fsm = .recv)
    (hlast : s.cnt.toNat = 6 + s.len.toNat) : t.fsm = .done := by
  cases (exec_byte_delivered s b hs).symm.trans h
  rw [State.accept_fsm, State.deliver_fsm, if_pos hlast]

/-- START leaves RECV, whether it arms the receiver or is rejected there (R110). -/
theorem exec_start_fsm {s t : State} {a : Byte} (h : exec (.start a) s = .next t) : t.fsm = .recv := by
  by_cases hs : s.fsm = .recv
  · cases (exec_start_rejected s a hs).symm.trans h
    exact hs
  · cases (exec_start_armed s a hs).symm.trans h
    rfl

theorem exec_abort_fsm {s t : State} (h : exec .abort s = .next t) : t.fsm = .idle := by
  cases (exec_abort s).symm.trans h
  rfl

/-- Settles O38: a step that changes DONE changes STATE, so `step_writes_state_or_verdict` names its move; each of the
named moves makes the change. -/
theorem doneRisesAndFallsOnlyAsNamed : Obligations.DoneRisesAndFallsOnlyAsNamed := by
  refine ⟨State.done_iff_code, fun s t hs h => ?rise, fun s t hs h => ?fall⟩
  case rise =>
    rw [State.done_false_iff_fsm] at hs
    rw [State.done_iff_fsm]
    constructor
    · intro ht
      obtain ⟨m, rest, hm, ⟨-, hf, -⟩ | ⟨w, rfl, ⟨-, hf, -⟩ | ⟨-, -, hf, -⟩ | ⟨⟨b, hd⟩, hrecv, hlast, -⟩⟩⟩ :=
        step_writes_state_or_verdict h (.inl (ht.trans_ne hs.symm))
      iterate 3 cases ht.symm.trans hf
      exact ⟨w, rest, b, hm, hd, hrecv, hlast⟩
    · rintro ⟨w, rest, b, hh, hd, hrecv, hlast⟩
      rw [step_of_decode hh hd] at h
      exact exec_last_byte_fsm h hrecv hlast
  case fall =>
    rw [State.done_iff_fsm] at hs
    rw [State.done_false_iff_fsm]
    constructor
    · intro ht
      obtain ⟨m, rest, hm, ⟨hr, -⟩ | ⟨w, hw, ⟨hd, -⟩ | ⟨hd, -⟩ | ⟨-, hrecv, -⟩⟩⟩ :=
        step_writes_state_or_verdict h (.inl (ht.trans_eq hs.symm))
      · exact ⟨m, rest, hm, .inl hr⟩
      · exact ⟨m, rest, hm, .inr ⟨w, hw, .inr hd⟩⟩
      · exact ⟨m, rest, hm, .inr ⟨w, hw, .inl hd⟩⟩
      · cases hs.symm.trans hrecv
    · rintro ⟨m, rest, hh, rfl | ⟨w, rfl, ⟨a, hd⟩ | hd⟩⟩
      · cases (step_reset hh).symm.trans h
        nofun
      · rw [step_of_decode hh hd] at h
        simp [exec_start_fsm h]
      · rw [step_of_decode hh hd] at h
        simp [exec_abort_fsm h]

end Machine
end Sys2Proof
end

section
/-! Reset and the hidden PAYBUF (70_reset_and_hazards.md, R210). -/

namespace Sys2Proof.Machine

/-- Every run of the host's moves answers alike in both (R42, by induction on the steps). -/
theorem runs_sameToHost (k : Nat) {s t : State} (h : s.SameToHost t) :
    ∃ s' t', Runs k s s' ∧ Runs k t t' ∧ s'.SameToHost t' := by
  induction k generalizing s t with
  | zero => exact ⟨s, t, runs_zero s, runs_zero t, h⟩
  | succ k ih =>
    obtain ⟨s₁, t₁, hs, ht, h₁⟩ := step_sameToHost h
    obtain ⟨s', t', hs', ht', h'⟩ := ih h₁
    exact ⟨s', t', runs_succ hs hs', runs_succ ht ht', h'⟩

/-- In IDLE no PAYBUF byte can reach the host, so blocks that differ only in PAYBUF are the same to it. -/
theorem State.sameToHost_of_idle {s t : State} (hs : s.fsm = .idle)
    (ht : t = { s with paybuf := t.paybuf, epoch := t.epoch }) : s.SameToHost t where
  registers := ht
  receiving hrecv := by cases hs.symm.trans hrecv
  readable hdone := by cases hs.symm.trans hdone

/-- The readable registers and DONE are closed values at reset (R22). -/
theorem reset_reads_zero : State.reset.stat = 0 ∧ State.reset.pos = 0 ∧ State.reset.chks = 0 ∧ State.reset.acc = 0 ∧
    State.reset.done = false := by decide

/-- They read the same once the host has asserted reset, for no readable register packs `host` or `epoch`. -/
theorem assertReset_reads_zero (s : State) : s.assertReset.stat = 0 ∧ s.assertReset.pos = 0 ∧
    s.assertReset.chks = 0 ∧ s.assertReset.acc = 0 ∧ s.assertReset.done = false := reset_reads_zero

/-- Settles O42: reset leaves IDLE, where `SameToHost` holds whatever PAYBUF's bytes are, and every run keeps it. -/
theorem resetSetsRegistersAndHidesPaybuf : Obligations.ResetSetsRegistersAndHidesPaybuf := by
  refine ⟨fun s rest hh => ?asserted, reset_reads_zero⟩
  case asserted =>
    obtain ⟨hstat, hpos, hchks, hacc, hdone⟩ := assertReset_reads_zero { s with host := rest }
    refine ⟨_, step_reset hh, rfl, rfl, rfl, rfl, rfl, rfl, rfl, rfl, rfl, rfl, rfl, rfl, rfl,
      hstat, hpos, hchks, hacc, hdone, fun u k hu => ?_⟩
    obtain ⟨t', u', ht, hu', h⟩ := runs_sameToHost k (State.sameToHost_of_idle rfl hu)
    exact ⟨t', u', ht, hu', h.registers⟩

end Sys2Proof.Machine
end

section
/-! The decoder undoes the encoder, and the encoder undoes the decoder up to ignored fields (30_encoding.md, R70 to
R73, R78). -/

namespace Sys2Proof

/-! The fields of an encoded word, whatever the command. -/

section
variable (i : Instr)

@[simp] theorem opField_encode : opField (encode i) = i.opcode := opField_packCommand _ _ _

@[simp] theorem rsvField_encode : rsvField (encode i) = 0 := rsvField_packCommand _ _ _

@[simp] theorem aField_encode : aField (encode i) = i.aOperand := aField_packCommand _ _ _

@[simp] theorem vField_encode : vField (encode i) = i.vOperand := vField_packCommand _ _ _

end

/-- Settles O1: the fields of the encoded word, put into the decoder's equation for the command's number. -/
theorem decodeOfEncodeIsTheCommand : Obligations.DecodeOfEncodeIsTheCommand := by
  intro i hwf
  have hr := rsvField_encode i
  have ho := opField_encode i
  have ha := aField_encode i
  have hv := vField_encode i
  cases i with
  | nop => exact decode_nop hr ho
  | start a => rw [decode_start hr ho, ha]; rfl
  | byte b => rw [decode_byte hr ho, ha]; rfl
  | abort => exact decode_abort hr ho
  | rdpay a => rw [decode_rdpay hr ho, ha]; rfl
  | rdreg a =>
    have hle : (aField (encode (.rdreg a))).toNat ≤ 3 := by
      rw [ha]
      exact of_decide_eq_true hwf
    rw [decode_rdreg hr ho hle, ha]; rfl
  | ddate v => rw [decode_ddate hr ho, hv]; rfl
  | dprot v => rw [decode_dprot hr ho, hv]; rfl
  | dbal a v => rw [decode_dbal hr ho, ha, hv]; rfl
  | dcd v => rw [decode_dcd hr ho, hv]; rfl

/-- A mask that keeps OP and RSV masks A and V one by one. -/
theorem packCommand_and (op : BitVec 4) (a ma : Byte) (v mv : Half) :
    packCommand op a v &&& ((0xF#4) ++ (0xF#4) ++ ma ++ mv) = packCommand op (a &&& ma) (v &&& mv) := by
  have h : (op ++ (0#4) ++ a ++ v) &&& (BitVec.allOnes 4 ++ BitVec.allOnes 4 ++ ma ++ mv) =
      op ++ (0#4) ++ (a &&& ma) ++ (v &&& mv) := by
    simp only [BitVec.and_append, BitVec.and_allOnes]
  exact h

/-- A command of the word's own number, whose operands are the word's masked fields, encodes as the masked word. -/
theorem encode_eq_and {w m : Word} {i : Instr} {ma : Byte} {mv : Half} (hr : rsvField w = 0)
    (ho : opField w = i.opcode) (ha : i.aOperand = aField w &&& ma) (hv : i.vOperand = vField w &&& mv)
    (hm : m = (0xF#4) ++ (0xF#4) ++ ma ++ mv) : encode i = w &&& m := by
  rw [hm, encode, ha, hv, ← ho, ← packCommand_and, packCommand_fields w hr]

/-- Settles O2: a word that decodes is legal, so its command number is one of the ten; the decoder's equation for that
number gives the command, and `encode_eq_and` its word. -/
theorem encodeOfDecodeClearsIgnoredFields : Obligations.EncodeOfDecodeClearsIgnoredFields := by
  intro w i hd
  refine ⟨Machine.wellFormed_of_decode hd, ?_⟩
  have noA : (0 : Byte) = aField w &&& 0x00 := BitVec.and_zero.symm
  have noV : (0 : Half) = vField w &&& 0x0000 := BitVec.and_zero.symm
  have allA : aField w = aField w &&& 0xFF := BitVec.and_allOnes.symm
  have allV : vField w = vField w &&& 0xFFFF := BitVec.and_allOnes.symm
  obtain ⟨hr, hop, ha⟩ := (decodes_iff_legal w).1 ⟨i, hd⟩
  simp only [List.mem_cons, List.not_mem_nil, or_false] at hop
  obtain ho | ho | ho | ho | ho | ho | ho | ho | ho | ho := hop
  · cases (decode_nop hr ho).symm.trans hd
    exact encode_eq_and hr ho noA noV rfl
  · cases (decode_start hr ho).symm.trans hd
    exact encode_eq_and hr ho allA noV rfl
  · cases (decode_byte hr ho).symm.trans hd
    exact encode_eq_and hr ho allA noV rfl
  · cases (decode_abort hr ho).symm.trans hd
    exact encode_eq_and hr ho noA noV rfl
  · cases (decode_rdpay hr ho).symm.trans hd
    exact encode_eq_and hr ho allA noV rfl
  · cases (decode_rdreg hr ho (ha ho)).symm.trans hd
    exact encode_eq_and hr ho allA noV rfl
  · cases (decode_ddate hr ho).symm.trans hd
    exact encode_eq_and hr ho noA allV rfl
  · cases (decode_dprot hr ho).symm.trans hd
    exact encode_eq_and hr ho noA allV rfl
  · cases (decode_dbal hr ho).symm.trans hd
    exact encode_eq_and hr ho allA allV rfl
  · cases (decode_dcd hr ho).symm.trans hd
    exact encode_eq_and hr ho noA allV rfl

end Sys2Proof
end

section
/-! The assembler's words are the encoder's (30_encoding.md section 4, R78). -/

namespace Sys2Proof.Machine.Assembler

/-! A line's words from the word its operands give, or from the range error of one of them. -/

theorem bind_ok {α β : Type} {r : Result α} {a : α} (h : r = .ok a) (f : α → Result β) : r.bind f = f a := by
  rw [h]; rfl

theorem bind_error {α β : Type} {r : Result α} {e : AsmError} (h : r = .error e) (f : α → Result β) :
    r.bind f = .error e := by
  rw [h]; rfl

theorem wordA_range (base : Word) {x : Nat} (h : 255 < x) : wordA base x = .error .operandRange :=
  if_neg (Nat.not_le.2 h)

theorem wordV_range (base : Word) {y : Nat} (h : 65535 < y) : wordV base y = .error .operandRange :=
  if_neg (Nat.not_le.2 h)

/-- The assembler's OR writes a word operand into V, where the base word has 0 (R78). -/
theorem wordV_packCommand (op : BitVec 4) (a : Byte) (v : Half) :
    wordV (packCommand op a 0) v.toNat = .ok (packCommand op a v) := by
  have hv : v.setWidth 32 = 0#(4 + 4 + 8) ++ v := BitVec.setWidth_eq_append (by decide)
  have hor : (op ++ (0#4) ++ a ++ 0#16) ||| (0#(4 + 4 + 8) ++ v) = op ++ (0#4) ++ a ++ v := by
    rw [BitVec.or_append, BitVec.or_zero, BitVec.zero_or]
  rw [wordV, if_pos (Nat.le_of_lt_succ v.isLt), BitVec.ofNat_toNat, hv]
  exact congrArg Result.ok hor

/-! Lines whose operand fits. -/

theorem bind_wordA_packCommand (op : BitVec 4) (a : Byte) :
    ((wordA (packCommand op 0 0) a.toNat).bind fun w => .ok [w]) = .ok [packCommand op a 0] :=
  bind_ok (wordA_packCommand op a) _

theorem bind_wordV_packCommand (op : BitVec 4) (v : Half) :
    ((wordV (packCommand op 0 0) v.toNat).bind fun w => .ok [w]) = .ok [packCommand op 0 v] :=
  bind_ok (wordV_packCommand op 0 v) _

theorem assembleLine_dbal (a : Byte) (v : Half) :
    assembleLine (.dbal v.toNat a.toNat) = .ok [encode (.dbal a v)] :=
  (bind_ok (wordA_packCommand 0xA a) _).trans (bind_ok (wordV_packCommand 0xA a v) _)

/-- DBAL's range error: A is tested first, but either operand gives it. -/
theorem assembleLine_dbal_range {x y : Nat} (h : 255 < x ∨ 65535 < y) :
    assembleLine (.dbal y x) = .error .operandRange := by
  by_cases hx : 255 < x
  · exact bind_error (wordA_range _ hx) _
  · exact (bind_ok (if_pos (Nat.not_lt.1 hx)) _).trans (bind_error (wordV_range _ (h.resolve_left hx)) _)

/-- Settles O6: a number that fits is a byte's or a half word's, whose line is that of the encoder; one that does not
fit makes `wordA` or `wordV` the range error. -/
theorem assemblerWritesTheEncodedWord : Obligations.AssemblerWritesTheEncodedWord := by
  refine fun x y => ⟨rfl, rfl, fun hx => ?fitsA, fun hx => ?rangeA, fun hy => ?fitsV, fun hy => ?rangeV,
    fun hx hy => ?dbal, assembleLine_dbal_range⟩
  case fitsA =>
    obtain ⟨a, rfl⟩ : ∃ a : Byte, a.toNat = x := ⟨BitVec.ofNatLT x (by omega), rfl⟩
    simp only [BitVec.ofNat_toNat, BitVec.setWidth_eq]
    exact ⟨bind_wordA_packCommand 0x1 a, bind_wordA_packCommand 0x2 a, bind_wordA_packCommand 0x4 a,
      bind_wordA_packCommand 0x5 a⟩
  case rangeA =>
    have h := fun base => bind_error (wordA_range base hx) (fun w => .ok [w])
    exact ⟨h _, h _, h _, h _⟩
  case fitsV =>
    obtain ⟨v, rfl⟩ : ∃ v : Half, v.toNat = y := ⟨BitVec.ofNatLT y (by omega), rfl⟩
    simp only [BitVec.ofNat_toNat, BitVec.setWidth_eq]
    exact ⟨bind_wordV_packCommand 0x8 v, bind_wordV_packCommand 0x9 v, bind_wordV_packCommand 0xB v⟩
  case rangeV =>
    have h := fun base => bind_error (wordV_range base hy) (fun w => .ok [w])
    exact ⟨h _, h _, h _⟩
  case dbal =>
    obtain ⟨a, rfl⟩ : ∃ a : Byte, a.toNat = x := ⟨BitVec.ofNatLT x (by omega), rfl⟩
    obtain ⟨v, rfl⟩ : ∃ v : Half, v.toNat = y := ⟨BitVec.ofNatLT y (by omega), rfl⟩
    simp only [BitVec.ofNat_toNat, BitVec.setWidth_eq]
    exact assembleLine_dbal a v

end Sys2Proof.Machine.Assembler
end

section
/-! Steps: each answers a next state and keeps the receiver's invariant (R14, R29, R59, R77). -/

namespace Sys2Proof.Machine

/-- Settles O7: `step_of_decode`. -/
theorem stepExecutesTheIssuedCommand : Obligations.StepExecutesTheIssuedCommand :=
  fun _ _ _ _ => step_of_decode

/-- Settles O8: the block waits, executes a command word, which always answers (R180), or takes reset. -/
theorem everyStepAnswersANextState : Obligations.EveryStepAnswersANextState := by
  intro s
  cases hh : s.host with
  | nil => exact ⟨s, step_nil hh⟩
  | cons m rest =>
    cases m with
    | command w =>
      obtain ⟨t, ht, -⟩ := runWord_cause w { s with host := rest }
      exact ⟨t, (step_command hh).trans ht⟩
    | reset => exact ⟨_, step_reset hh⟩

/-- Settles O43: a block that takes reset meets the invariant, and all that sets it apart from State.reset is `epoch`,
which only the two clauses on payload bytes read: none is received, and no frame is complete. -/
theorem receiverInvariantAtReset : Obligations.ReceiverInvariantAtReset :=
  { State.inv_assertReset State.reset with
    sum_exact := rfl
    calcchk_full := fun h => absurd h (by decide) }

/-- An accepted BYTE keeps the receiver's invariant, be it the last of its frame or not (R111). -/
theorem State.Inv.deliver {s : State} (h : s.Inv) (hs : s.fsm = .recv) (b : Byte) : (s.deliver b).Inv := by
  by_cases hlast : s.cnt.toNat = 6 + s.len.toNat
  · rw [s.deliver_last b hlast]
    exact h.deliver_last b hlast
  · rw [s.deliver_more b hlast]
    exact h.deliver_more hs b hlast

/-- Settles O44: `step_cases` names what a step can do, and each of the operations keeps the invariant. -/
theorem receiverInvariantIsKept : Obligations.ReceiverInvariantIsKept := by
  intro s t h hstep
  obtain ⟨-, he⟩ | ⟨m, rest, -, ⟨-, he⟩ | ⟨w, -, hw⟩⟩ := step_cases s
  · cases he.symm.trans hstep
    exact h
  · cases he.symm.trans hstep
    exact State.inv_assertReset _
  have h' := h.withHost rest
  obtain ⟨c, r, he, -⟩ | ⟨a, -, -, he⟩ | ⟨b, -, hs, he⟩ | ⟨-, he⟩ := hw <;> cases he.symm.trans hstep
  · exact h'.respond c r
  · exact (h'.arm a).respond _ _
  · exact (h'.deliver hs b).respond _ _
  · exact h'.abandon.respond _ _

end Sys2Proof.Machine
end

section
/-! Delivering bytes, and the payload they leave (40_frame_codec.md R111, R116, R119; 20_memory.md R50, R62). -/

namespace Sys2Proof.Machine

open Reference

namespace State

/-- CALCCHK is written by the last byte of a frame and by no other (R113). -/
theorem deliver_calcchk (s : State) (b : Byte) : (s.deliver b).calcchk =
    if s.cnt.toNat = 6 + s.len.toNat then computedChecksum s.sum s.len else s.calcchk := by
  by_cases hlast : s.cnt.toNat = 6 + s.len.toNat
  · rw [deliver_last s b hlast, if_pos hlast]; rfl
  · rw [deliver_more s b hlast, if_neg hlast]; exact capture_calcchk s _ b

theorem payByte_of_read {s : State} {i : Nat} {b : Byte} (h : Paybuf.read s.paybuf i = some b) : s.payByte i = b := by
  simp [payByte, h]

/-- In DONE the whole payload has been received (R29). -/
theorem Inv.received_of_done {s : State} (h : s.Inv) (hs : s.fsm = .done) : s.received = s.len.toNat := by
  have hcnt := (h.done hs).1
  simp only [received, Config.headerBytes, Config.overheadBytes] at hcnt ⊢
  omega

end State

/-- Settles O21: an accepted BYTE field by field, the last of the frame and one before it. -/
theorem byteCountsUntilTheStopByte : Obligations.ByteCountsUntilTheStopByte := by
  refine ⟨fun s b hs => ⟨_, exec_byte_delivered s b hs, s.deliver_cnt b, rfl, rfl, ?completes, fun hmore => ?before⟩,
    exec_byte_rejected⟩
  case completes =>
    rw [State.accept_fsm, State.deliver_fsm, hs]
    simp
  case before =>
    simp [State.deliver_fsm, State.deliver_verdict, State.deliver_calcchk, hmore, hs]

/-- Settles O25: in DONE every payload index has been received, so written since reset. -/
theorem readablePayloadByteWasReceived : Obligations.ReadablePayloadByteWasReceived := by
  intro s a h hs hv ha
  obtain ⟨b, hb⟩ := h.pay_written a.toNat (by rwa [h.received_of_done hs])
  refine ⟨b, hb, ?_⟩
  rw [exec_rdpay_readable (State.payloadReadable_iff.2 ⟨hs, hv, ha⟩), State.payByte_of_read hb]
  rfl

/-- Settles O39: of the moves in `step_cases` only reset and an accepted BYTE touch PAYBUF, and `deliver_payByte` says
which byte the latter writes. -/
theorem paybufIsWrittenOnlyByPayloadBytes : Obligations.PaybufIsWrittenOnlyByPayloadBytes := by
  intro s t i hstep hne
  obtain ⟨-, he⟩ | ⟨m, rest, hm, ⟨rfl, -⟩ | ⟨w, rfl, hw⟩⟩ := step_cases s
  · cases he.symm.trans hstep
    exact absurd rfl hne
  · exact ⟨_, rest, hm, .inl rfl⟩
  refine ⟨_, rest, hm, .inr ⟨w, ?_⟩⟩
  obtain ⟨c, r, he, -⟩ | ⟨a, -, -, he⟩ | ⟨b, hd, hs, he⟩ | ⟨-, he⟩ := hw <;> cases he.symm.trans hstep
  · exact absurd rfl hne
  · exact absurd rfl hne
  · rw [State.accept_payByte, State.deliver_payByte] at hne ⊢
    obtain ⟨h4, hp, hi⟩ := (ite_ne_right_iff.1 hne).1
    have hlen := s.len.isLt
    exact ⟨b, rfl, hd, hs, h4, hp, hi, by omega, if_pos ⟨h4, hp, hi⟩⟩
  · exact absurd rfl hne

/-- START, ABORT and reset in DONE leave it, and of the three only reset can change a PAYBUF byte (R62, R189). -/
theorem step_discards_payload {s t : State} {m : HostInput} {rest : List HostInput} (hs : s.fsm = .done)
    (hstep : step s = .next t) (hm : s.host = m :: rest)
    (hdiscard : m = .reset ∨
      ∃ w, m = .command w ∧ ((∃ a, decode w = .command (.start a)) ∨ decode w = .command .abort)) :
    t.fsm ≠ .done ∧ (m ≠ .reset → ∀ k, t.payByte k = s.payByte k) := by
  obtain rfl | ⟨w, rfl, ⟨a, hd⟩ | hd⟩ := hdiscard
  · cases (step_reset hm).symm.trans hstep
    exact ⟨nofun, fun h => absurd rfl h⟩
  · have he := (step_of_decode hm hd).trans (exec_start_armed _ a (by simp [hs]))
    cases he.symm.trans hstep
    exact ⟨nofun, fun _ _ => rfl⟩
  · cases (step_of_decode hm hd).symm.trans hstep
    exact ⟨nofun, fun _ _ => rfl⟩

/-- Settles O40: `step_discards_payload`; and in DONE every other move only responds, if the block does not wait. -/
theorem payloadLivesUntilStartAbortOrReset : Obligations.PayloadLivesUntilStartAbortOrReset := by
  refine fun s t hs hv hstep => ⟨fun m rest hm hdiscard => ?discarded, fun hother => ?kept⟩
  case discarded =>
    obtain ⟨ht, hpay⟩ := step_discards_payload hs hstep hm hdiscard
    exact ⟨fun i => exec_rdpay_hidden (State.not_payloadReadable_of_fsm ht i), hpay⟩
  case kept =>
    obtain ⟨-, he⟩ | ⟨m, rest, hm, ⟨rfl, -⟩ | ⟨w, rfl, hw⟩⟩ := step_cases s
    · cases he.symm.trans hstep
      exact ⟨hs, hv, rfl, fun _ => rfl⟩
    · exact absurd ⟨_, rest, hm, .inl rfl⟩ hother
    obtain ⟨c, r, he, -⟩ | ⟨a, hd, -⟩ | ⟨b, -, hrecv, -⟩ | ⟨hd, -⟩ := hw
    · cases he.symm.trans hstep
      exact ⟨hs, hv, rfl, fun _ => rfl⟩
    · exact absurd ⟨_, rest, hm, .inr ⟨w, rfl, .inl ⟨a, hd⟩⟩⟩ hother
    · cases hs.symm.trans hrecv
    · exact absurd ⟨_, rest, hm, .inr ⟨w, rfl, .inr hd⟩⟩ hother

/-- Settles O41: `runs_received` follows the bytes issued, and with nothing more issued the block waits in RECV. -/
theorem shortStreamStaysInRecv : Obligations.ShortStreamStaysInRecv := by
  intro s r F k m hs hF hk hm
  have hn : F.length = frameLen F + 7 := hF
  obtain ⟨t, hrun, g, hh⟩ := runs_received r F s hs k hk.le (by omega) []
  rw [List.append_nil] at hrun
  have hwait := runs_add hrun (runs_waiting hh (m - (k + 1)))
  rw [Nat.add_sub_cancel' hm] at hwait
  exact ⟨t, hwait, g.fsm, g.verdict, g.cnt, hh⟩

end Sys2Proof.Machine
end
